-- ==== Sys2Proof/Word.lean ====
section
/-! DEFINITION. The word types of the machine (00_scope.md R8, 10_state.md R20, 20_memory.md R51). -/

namespace Sys2Proof

/-- A register value, an address or a memory word: 32 bits (R8). -/
abbrev Word := BitVec 32

/-- The addressable unit: 8 bits (R51). -/
abbrev Byte := BitVec 8

/-- A general register number, 0 to 31 (R20). -/
abbrev Reg := Fin 32

end Sys2Proof
end

