-- ==== Sys2Proof/Machine/Flags.lean ====
section
/-! DEFINITION. The ALU's flags and its function table (10_state.md R34, R35; 40_alu.md R110 to R112), and the shift
register's function table (10_state.md R36). The flags are outputs of a combinational circuit, not state (R34). -/

namespace Sys2Proof.Machine

/-- The mathematical result does not fit 32 bits signed (40_alu.md R112). -/
def outOfRange (x : Int) : Bool := decide (x < -2 ^ 31 ∨ 2 ^ 31 - 1 < x)

/-- Flag Z: the result is zero (R34). -/
def flagZ (v : Word) : Bool := v == 0

/-- Flag N: bit 31 of the result is set (R34). -/
def flagN (v : Word) : Bool := v.msb

/-- Flag O of an addition (R112). -/
def flagOAdd (a b : Word) : Bool := outOfRange (a.toInt + b.toInt)

/-- Flag O of a subtraction (R112). -/
def flagOSub (a b : Word) : Bool := outOfRange (a.toInt - b.toInt)

/-- Flag EG: A equals B (R34). -/
def flagEg (a b : Word) : Bool := a == b

/-- Flag GT: A greater than B, signed (R34). -/
def flagGt (a b : Word) : Bool := decide (b.toInt < a.toInt)

/-- Flag LT: A less than B, signed (R34). -/
def flagLt (a b : Word) : Bool := decide (a.toInt < b.toInt)

/-- `(signed(a) + signed(b)) mod 2^32` (40_alu.md R113). -/
def sumWord (a b : Word) : Word := BitVec.ofInt 32 (a.toInt + b.toInt)

/-- `(signed(a) - signed(b)) mod 2^32` (40_alu.md R114). -/
def diffWord (a b : Word) : Word := BitVec.ofInt 32 (a.toInt - b.toInt)

/-- The eight functions of the ALU, in the order of their codes F = 000 to 111 (R35). -/
inductive AluFn where
  | load
  | add
  | sub
  | and
  | inc
  | not
  | xor
  | comp
deriving DecidableEq, Repr

/-- The output S; the comparison gives none (R35; log 27). -/
def aluS (f : AluFn) (a b : Word) : Option Word :=
  match f with
  | .load => some a
  | .add => some (sumWord a b)
  | .sub => some (diffWord a b)
  | .and => some (a &&& b)
  | .inc => some (sumWord a 1)
  | .not => some (~~~a)
  | .xor => some (a ^^^ b)
  | .comp => none

/-- The flags one ALU function produces; `none` is a flag the table does not list for it (R35). -/
structure AluFlags where
  z : Option Bool := none
  n : Option Bool := none
  o : Option Bool := none
  eg : Option Bool := none
  gt : Option Bool := none
  lt : Option Bool := none
deriving DecidableEq, Repr

/-- The flags column of the ALU table (R34, R35). -/
def aluFlags (f : AluFn) (a b : Word) : AluFlags :=
  match f with
  | .load => { z := some (flagZ a), n := some (flagN a) }
  | .add => { z := some (flagZ (sumWord a b)), n := some (flagN (sumWord a b)), o := some (flagOAdd a b) }
  | .sub => { z := some (flagZ (diffWord a b)), n := some (flagN (diffWord a b)), o := some (flagOSub a b) }
  | .and => { z := some (flagZ (a &&& b)) }
  | .inc => { z := some (flagZ (sumWord a 1)), n := some (flagN (sumWord a 1)), o := some (flagOAdd a 1) }
  | .not => { z := some (flagZ (~~~a)) }
  | .xor => { z := some (flagZ (a ^^^ b)) }
  | .comp => { eg := some (flagEg a b), gt := some (flagGt a b), lt := some (flagLt a b) }

/-- Shift left by `n`, zeros in, bits out lost: `(v * 2^n) mod 2^32` (42_shift.md R140, R141). -/
def shiftLeft (v : Word) (n : Nat) : Word := BitVec.ofNat 32 (v.toNat * 2 ^ n)

/-- Logical shift right by `n`: `floor(v / 2^n)` (42_shift.md R142). -/
def shiftRight (v : Word) (n : Nat) : Word := BitVec.ofNat 32 (v.toNat / 2 ^ n)

/-- The seven listed functions of the shift register, in the order of their codes 000 to 110; 111 is not listed
(10_state.md R36). -/
inductive ShiftFn where
  | nothing
  | load
  | left
  | rightLogical
  | rightArithmetic
  | rotateRight
  | rotateLeft
deriving DecidableEq, Repr

/-- What the shift register holds after one function, from what it held, its input and the amount `n` (R36). -/
def shiftRegister (f : ShiftFn) (held input : Word) (n : Nat) : Word :=
  match f with
  | .nothing => held
  | .load => input
  | .left => shiftLeft held n
  | .rightLogical => shiftRight held n
  | .rightArithmetic => held.sshiftRight n
  | .rotateRight => held.rotateRight n
  | .rotateLeft => held.rotateLeft n

end Sys2Proof.Machine
end

