-- ==== Sys2Proof/Config.lean ====
section
/-! DEFINITION. What one build of the hardware fixes (the OPEN parameters of 00_scope.md R6) and the free values.
The parameters are plain data that State carries, so a statement about every state is a statement about every
machine the spec admits. -/

namespace Sys2Proof

/-- `BYTE_ORDER` (20_memory.md R53). -/
inductive ByteOrder where
  | little
  | big
deriving DecidableEq, Repr

/-- The word `push $29` stores, when the build gives it one: the two candidates 45_stack.md R192 names. -/
inductive PushSelf where
  /-- SP before the decrement. -/
  | oldSp
  /-- SP after the decrement. -/
  | newSp
deriving DecidableEq, Repr

/-- What register 29 ends with after `pop $29`, when the build says: the two candidates of R192. -/
inductive PopSelf where
  /-- The word read from the stack. -/
  | loaded
  /-- The old SP plus 4. -/
  | incremented
deriving DecidableEq, Repr

/-- `STACK_SELF_OPERAND` (45_stack.md R192): the default refuses; a build whose behaviour is known names it. -/
inductive StackSelf where
  | refuse
  | run (push : PushSelf) (pop : PopSelf)
deriving DecidableEq, Repr

/-- The OPEN parameters of one machine (00_scope.md R6; 92_eei_decisions.md D1, D2, D3, D19). -/
structure Params where
  /-- `BYTE_ORDER`. -/
  byteOrder : ByteOrder
  /-- `R0_HARDWIRED`: register 0 reads 0 and discards writes. -/
  r0Hardwired : Bool
  /-- `MEM_SIZE`: addresses 0 to `memSize - 1` are backed. -/
  memSize : Nat
  /-- `STACK_SELF_OPERAND`. -/
  stackSelf : StackSelf
deriving DecidableEq, Repr

/-- The values the spec admits: `MEM_SIZE` is at least 256 (R6) and at most 2^32 (D3). -/
abbrev Params.wf (p : Params) : Prop := 256 ≤ p.memSize ∧ p.memSize ≤ 2 ^ 32

/-- FREE VALUE. What `HI` holds after the n-th `div` whose result the spec leaves unspecified
(41_muldiv.md R132, D15, D16). No body: nothing can be proved of a value of it. -/
opaque Config.freeHi : Nat → Word

/-- FREE VALUE. What `LO` holds after the n-th `div` whose result the spec leaves unspecified
(41_muldiv.md R132, D15, D16). -/
opaque Config.freeLo : Nat → Word

end Sys2Proof
end

