-- ==== Sys2Proof/Machine/Bytes.lean ====
section
/-! DEFINITION. Byte order (20_memory.md R54, R55), and the two extensions of 00_scope.md R9. -/

namespace Sys2Proof.Machine

/-- The number whose bytes, least significant first, are the list. -/
def joinLittle : List Byte → Nat
  | [] => 0
  | b :: bs => b.toNat + 256 * joinLittle bs

/-- The value of bytes listed from the lowest address up (R54). -/
def joinBytes (o : ByteOrder) (bs : List Byte) : Nat :=
  match o with
  | .little => joinLittle bs
  | .big => joinLittle bs.reverse

/-- The `n` low bytes of `v`, least significant first. -/
def splitLittle : Nat → Nat → List Byte
  | 0, _ => []
  | n + 1, v => BitVec.ofNat 8 v :: splitLittle n (v / 256)

/-- The `n` bytes of `v` from the lowest address up (R55). -/
def splitBytes (o : ByteOrder) (n v : Nat) : List Byte :=
  match o with
  | .little => splitLittle n v
  | .big => (splitLittle n v).reverse

/-- `sext_32` (R9). -/
def sext {w : Nat} (v : BitVec w) : Word := v.signExtend 32

/-- `zext_32` (R9). -/
def zext {w : Nat} (v : BitVec w) : Word := v.setWidth 32

end Sys2Proof.Machine
end

