-- ==== Sys2Proof/Machine/Defaults.lean ====
section
/-! DEFINITION. The values State.reset takes where the spec leaves them to the launch state or to an OPEN parameter
(10_state.md R45, 70_reset_and_hazards.md R240). Every one is a choice of the model named in the assumption log. -/

namespace Sys2Proof.Machine

/-- The parameters of the machine State.reset starts. DESIGN CHOICE, unsafe: logs 2, 3, 4; log 5 for the last. -/
def defaultParams : Params where
  byteOrder := .little
  r0Hardwired := true
  memSize := 2 ^ 32
  stackSelf := .refuse

/-- `RESET_PC`. DESIGN CHOICE, unsafe: log 6. -/
def resetPc : Word := 0

/-- The general registers no launch value is given for. DESIGN CHOICE, unsafe: log 7. -/
def resetRegs : Vector Word 32 := Vector.replicate 32 0

/-- `HI` at reset. DESIGN CHOICE, unsafe: log 8. -/
def resetHi : Word := 0

/-- `LO` at reset. DESIGN CHOICE, unsafe: log 8. -/
def resetLo : Word := 0

/-- `EPC` at reset. DESIGN CHOICE, unsafe: log 9. -/
def resetEpc : Word := 0

end Sys2Proof.Machine
end

