-- ==== Sys2Proof/Machine/State.lean ====
section
/-! DEFINITION. The whole state of the machine (10_state.md section 0), the reasons a step can stop, and the state the
model starts from (10_state.md R45, 70_reset_and_hazards.md R240). -/

namespace Sys2Proof.Machine

/-- The bytes of memory that hold a value, by address, in rising order (20_memory.md R50, R51). An address that is not
listed is unwritten (10_state.md R24). -/
abbrev Memory := List Host.Cell

/-- The machine. Plain data. -/
structure State where
  /-- The OPEN parameters of this build (00_scope.md R6); no step changes them. -/
  params : Params
  /-- Storage of x[0] to x[31] (R20); read and written through `State.readReg` and `State.writeReg`. -/
  regs : Vector Word 32
  /-- The address of the instruction to execute (R25, R26). -/
  pc : Word
  /-- `HI` (R30, R31). -/
  hi : Word
  /-- `LO` (R30, R31). -/
  lo : Word
  /-- `EPC` (R32). -/
  epc : Word
  /-- The memory bytes that hold a value (20_memory.md R50). -/
  mem : Memory
  /-- The model's own: how many free values of `div` have been drawn (41_muldiv.md R132). -/
  draws : Nat
deriving DecidableEq, Repr

/-- Faults of the model, none of which is one of the three hardware exceptions. -/
inductive Fault where
  /-- Raised by every memory access (fetch, load, store, push, pop, vector byte) that touches this address, which is at
  or above `MEM_SIZE` (20_memory.md R52). Safe: the spec admits no successor state. -/
  | outsideMemory (addr : Nat)
  /-- Raised by every memory read of this address, which holds no value (10_state.md R24). Safe: the spec gives no
  value and no successor state. -/
  | unwrittenByte (addr : Nat)
deriving DecidableEq, Repr

/-- Refusals of the model. -/
inductive Refusal where
  /-- Raised by an arm of `exec` that has no meaning yet; no arm does now. Safe. -/
  | notModelled (mnemonic : String)
  /-- Raised by `push $29` and `pop $29` when `STACK_SELF_OPERAND` is `refuse` (45_stack.md R192). Safe: the spec
  gives the word no meaning there. -/
  | stackSelfOperand
deriving DecidableEq, Repr

/-- What one step answers. -/
abbrev Result := Host.Outcome State Fault Refusal

/-- The machine with no launch value given and no memory byte written. Each value is named in the assumption log:
the spec gives none (R45). -/
def State.reset : State where
  params := defaultParams
  regs := resetRegs
  pc := resetPc
  hi := resetHi
  lo := resetLo
  epc := resetEpc
  mem := []
  draws := 0

end Sys2Proof.Machine
end

