-- ==== Sys2Proof/Machine/Memory.lean ====
section
/-! DEFINITION. The memory as a list in canonical form, one byte at a time (20_memory.md R50, R51, R59). -/

namespace Sys2Proof.Machine

/-- What an address that is not listed reads as: nothing, it is unwritten (10_state.md R24; log 10). -/
def Memory.unlisted : Option Byte := none

/-- The byte held at an address, if any (00_scope.md R11, `M[a]`). -/
def Memory.read : Memory → Nat → Option Byte
  | [], _ => Memory.unlisted
  | (k, b) :: m, a => if a = k then some b else Memory.read m a

/-- `M[a] <- b`. No written value equals what an unlisted address reads as, so a write never removes an entry. -/
def Memory.write : Memory → Nat → Byte → Memory
  | [], a, b => [(a, b)]
  | (k, c) :: m, a, b =>
    if a < k then (a, b) :: (k, c) :: m
    else if a = k then (a, b) :: m
    else (k, c) :: Memory.write m a b

/-- The canonical form: addresses strictly rising. -/
abbrev Memory.wf (m : Memory) : Prop := m.Pairwise fun x y => x.1 < y.1

/-- The bytes at a list of addresses, or the fault of the first that is unwritten (R24). -/
def Memory.readAll (m : Memory) : List Nat → Except Fault (List Byte)
  | [] => .ok []
  | a :: as =>
    match m.read a with
    | none => .error (.unwrittenByte a)
    | some b =>
      match Memory.readAll m as with
      | .error f => .error f
      | .ok bs => .ok (b :: bs)

/-- Write each listed byte at its address. -/
def Memory.writeAll (m : Memory) : List Host.Cell → Memory
  | [] => m
  | (a, b) :: cs => Memory.writeAll (m.write a b) cs

end Sys2Proof.Machine
end

