-- ==== Sys2Proof/Machine/Ops.lean ====
section
/-! DEFINITION. The operations every meaning is written with: registers, memory accesses, the advance of pc, taking an
exception and returning from one. -/

namespace Sys2Proof.Machine

/-- `SP_REG`, the stack pointer (10_state.md R21). -/
def spReg : Reg := 29

/-- The link register of `jal` (10_state.md R21; D13). -/
def linkReg : Reg := 31

/-- Register 0 is hard-wired and this is register 0 (10_state.md R22). -/
def isZeroReg (p : Params) (r : Reg) : Bool := p.r0Hardwired && decide (r = 0)

/-- `x[r]` (00_scope.md R10, 10_state.md R22). -/
def State.readReg (s : State) (r : Reg) : Word :=
  if isZeroReg s.params r then 0 else s.regs[r]

/-- `x[r] <- v` (00_scope.md R10, 10_state.md R22). -/
def State.writeReg (s : State) (r : Reg) (v : Word) : State :=
  { s with regs := if isZeroReg s.params r then s.regs else s.regs.set r.val v r.isLt }

/-- `pc <- target` (00_scope.md R13). -/
def State.jumpTo (s : State) (target : Word) : State := { s with pc := target }

/-- The default advance, modulo 2^32 and without overflow (10_state.md R27). -/
def State.advance (s : State) : State := s.jumpTo (s.pc + 4)

/-- `HI <- h; LO <- l` (10_state.md R31). -/
def State.setHiLo (s : State) (h l : Word) : State := { s with hi := h, lo := l }

/-- `HI <- unspecified; LO <- unspecified` (41_muldiv.md R132): free values, fresh at each draw (log 13). -/
def State.drawHiLo (s : State) : State :=
  { s with hi := Config.freeHi s.draws, lo := Config.freeLo s.draws, draws := s.draws + 1 }

/-- The byte addresses of an access of `n` bytes at `addr`, wrapping modulo 2^32 (20_memory.md R54). -/
def accessAddrs (addr : Word) (n : Nat) : List Nat :=
  (List.range n).map fun k => (addr + BitVec.ofNat 32 k).toNat

/-- The first of these addresses that no memory backs (20_memory.md R52). -/
def State.unbacked (s : State) (as : List Nat) : Option Nat :=
  as.find? fun a => decide (s.params.memSize ≤ a)

/-- `MemRead(addr, n)` as a number below 2^(8n), in the machine's byte order (20_memory.md R54). -/
def State.memRead (s : State) (addr : Word) (n : Nat) : Except Fault Nat :=
  match s.unbacked (accessAddrs addr n) with
  | some a => .error (.outsideMemory a)
  | none =>
    match s.mem.readAll (accessAddrs addr n) with
    | .error f => .error f
    | .ok bs => .ok (joinBytes s.params.byteOrder bs)

/-- `MemWrite(addr, n, v)` (20_memory.md R55): nothing is written when any byte is not backed (R52). -/
def State.memWrite (s : State) (addr : Word) (n v : Nat) : Except Fault State :=
  match s.unbacked (accessAddrs addr n) with
  | some a => .error (.outsideMemory a)
  | none =>
    .ok { s with mem := s.mem.writeAll ((accessAddrs addr n).zip (splitBytes s.params.byteOrder n v)) }

/-- The three hardware exceptions (60_exceptions.md R210). -/
inductive Exc where
  | nonexistentOpcode
  | overflow
  | divideByZero
deriving DecidableEq, Repr

/-- The address of an exception's vector byte (60_exceptions.md R210). -/
def Exc.vector : Exc → Word
  | .nonexistentOpcode => 253
  | .overflow => 254
  | .divideByZero => 255

/-- TAKING AN EXCEPTION (60_exceptions.md R214, R215): `EPC <- A; pc <- zext_32(MemRead(V, 1))` and nothing else. `A` is
the pc the step began with, which no meaning has moved when it raises. The vector byte must be readable (R217). -/
def raise (e : Exc) (s : State) : Result :=
  match s.memRead e.vector 1 with
  | .error f => .fault f
  | .ok v => .next { s with epc := s.pc, pc := zext (BitVec.ofNat 8 v) }

/-- RETURNING FROM AN EXCEPTION (46_system.md R200): `pc <- EPC` and nothing else. -/
def returnFromException (s : State) : State := s.jumpTo s.epc

/-- The end of an instruction that writes one general register and goes on (10_state.md R27). -/
def State.finish (s : State) (dest : Reg) (v : Word) : Result := .next (s.writeReg dest v).advance

/-- A load: read `n` bytes at `ea`, widen them, write `dest`, go on (44_loadstore.md R170 to R173). -/
def State.load (s : State) (ea : Word) (n : Nat) (widen : Nat → Word) (dest : Reg) : Result :=
  match s.memRead ea n with
  | .error f => .fault f
  | .ok v => s.finish dest (widen v)

/-- A store: write `n` bytes at `ea` and go on (44_loadstore.md R170, R174, R175). -/
def State.store (s : State) (ea : Word) (n v : Nat) : Result :=
  match s.memWrite ea n v with
  | .error f => .fault f
  | .ok t => .next t.advance

end Sys2Proof.Machine
end

