-- ==== Sys2Proof/Machine/Operands.lean ====
section
/-! DEFINITION. Every operand form (30_encoding.md R84; 10_state.md R42; 43_control.md R150, R155; 44_loadstore.md R170;
45_stack.md R190). Every sum here is modulo 2^32 and raises nothing (40_alu.md R111, R112; D29). -/

namespace Sys2Proof.Machine

/-- The sign-extended immediate of `addi`, `slti` and of the displacement (R84). -/
def immWord (imm : BitVec 16) : Word := sext imm

/-- `ea := (x[rs] + sext_32(imm)) mod 2^32`, the one addressing mode (44_loadstore.md R170). -/
def State.effAddr (s : State) (rs : Reg) (imm : BitVec 16) : Word := s.readReg rs + immWord imm

/-- `T := (A + 4 + (sext_32(imm) << 2)) mod 2^32` (43_control.md R150). -/
def State.branchTarget (s : State) (imm : BitVec 16) : Word := s.pc + 4 + immWord imm <<< 2

/-- The address of the instruction after this one, the link value of `jal` (43_control.md R156). -/
def State.nextPc (s : State) : Word := s.pc + 4

/-- `{(A + 4)[31:28], target, 0b00}` (43_control.md R155). -/
def State.jumpTarget (s : State) (target : BitVec 26) : Word :=
  BitVec.ofNat 32 (s.nextPc.toNat / 2 ^ 28 * 2 ^ 28 + target.toNat * 4)

/-- `{imm, 0x0000}` (40_alu.md R119). -/
def upperImm (imm : BitVec 16) : Word := BitVec.ofNat 32 (imm.toNat * 2 ^ 16)

/-- The shift amount of `sllv`: the low five bits of the register (42_shift.md R143; D18). -/
def shiftAmount (v : Word) : Nat := v.toNat % 32

/-- The address `push` stores to: SP minus 4 (45_stack.md R190). -/
def State.pushAddr (s : State) : Word := s.readReg spReg - 4

/-- The address `pop` loads from: SP (45_stack.md R191). -/
def State.popAddr (s : State) : Word := s.readReg spReg

/-- 1 or 0 (40_alu.md R116, R118). -/
def boolWord (b : Bool) : Word := if b then 1 else 0

/-- Take the branch or go on (43_control.md R150). -/
def State.branch (s : State) (taken : Bool) (imm : BitVec 16) : Result :=
  if taken then .next (s.jumpTo (s.branchTarget imm)) else .next s.advance

end Sys2Proof.Machine
end

