-- ==== Sys2Proof/Machine/Arith.lean ====
section
/-! DEFINITION. Arithmetic, logic, comparison and immediate instructions (40_alu.md). -/

namespace Sys2Proof.Machine

/-- Write the result, or raise `Overflow` before any write (40_alu.md R112, R113; D7, D8). -/
def State.finishOrOverflow (s : State) (o : Bool) (dest : Reg) (v : Word) : Result :=
  if o then raise .overflow s else s.finish dest v

/-- `add rd, rs, rt` (R113). -/
def execAdd (rd rs rt : Reg) (s : State) : Result :=
  s.finishOrOverflow (flagOAdd (s.readReg rs) (s.readReg rt)) rd (sumWord (s.readReg rs) (s.readReg rt))

/-- `sub rd, rs, rt` (R114). -/
def execSub (rd rs rt : Reg) (s : State) : Result :=
  s.finishOrOverflow (flagOSub (s.readReg rs) (s.readReg rt)) rd (diffWord (s.readReg rs) (s.readReg rt))

/-- `and rd, rs, rt` (R115). -/
def execAnd (rd rs rt : Reg) (s : State) : Result :=
  s.finish rd (s.readReg rs &&& s.readReg rt)

/-- `slt rd, rs, rt` (R116). -/
def execSlt (rd rs rt : Reg) (s : State) : Result :=
  s.finish rd (boolWord (flagLt (s.readReg rs) (s.readReg rt)))

/-- `addi rt, rs, imm` (R117). -/
def execAddi (rt rs : Reg) (imm : BitVec 16) (s : State) : Result :=
  s.finishOrOverflow (flagOAdd (s.readReg rs) (immWord imm)) rt (sumWord (s.readReg rs) (immWord imm))

/-- `slti rt, rs, imm` (R118). -/
def execSlti (rt rs : Reg) (imm : BitVec 16) (s : State) : Result :=
  s.finish rt (boolWord (flagLt (s.readReg rs) (immWord imm)))

/-- `lui rt, imm` (R119). -/
def execLui (rt : Reg) (imm : BitVec 16) (s : State) : Result :=
  s.finish rt (upperImm imm)

end Sys2Proof.Machine
end

