-- ==== Sys2Proof/Machine/Control.lean ====
section
/-! DEFINITION. Branches and jumps (43_control.md). There is no delay slot (70_reset_and_hazards.md R246). -/

namespace Sys2Proof.Machine

/-- `beq rs, rt, offset` (R151). -/
def execBeq (rs rt : Reg) (imm : BitVec 16) (s : State) : Result :=
  s.branch (flagEg (s.readReg rs) (s.readReg rt)) imm

/-- `bne rs, rt, offset` (R152). -/
def execBne (rs rt : Reg) (imm : BitVec 16) (s : State) : Result :=
  s.branch (!flagEg (s.readReg rs) (s.readReg rt)) imm

/-- `ble rs, rt, offset` (R153). -/
def execBle (rs rt : Reg) (imm : BitVec 16) (s : State) : Result :=
  s.branch (!flagGt (s.readReg rs) (s.readReg rt)) imm

/-- `bgt rs, rt, offset` (R154). -/
def execBgt (rs rt : Reg) (imm : BitVec 16) (s : State) : Result :=
  s.branch (flagGt (s.readReg rs) (s.readReg rt)) imm

/-- `j offset` (R155). -/
def execJ (target : BitVec 26) (s : State) : Result := .next (s.jumpTo (s.jumpTarget target))

/-- `jal offset` (R156): the link and the region bits come from the same `A + 4`. -/
def execJal (target : BitVec 26) (s : State) : Result :=
  .next ((s.writeReg linkReg s.nextPc).jumpTo (s.jumpTarget target))

/-- `jr rs` (R157): all 32 bits, no alignment check. -/
def execJr (rs : Reg) (s : State) : Result := .next (s.jumpTo (s.readReg rs))

end Sys2Proof.Machine
end

