-- ==== Sys2Proof/Machine/LoadStore.lean ====
section
/-! DEFINITION. Loads and stores (44_loadstore.md). No alignment is required (20_memory.md R57). -/

namespace Sys2Proof.Machine

/-- A loaded byte, sign-extended (R171; D9). -/
def widenByte (v : Nat) : Word := sext (BitVec.ofNat 8 v)

/-- A loaded halfword, sign-extended (R172; D9). -/
def widenHalf (v : Nat) : Word := sext (BitVec.ofNat 16 v)

/-- A loaded word (R173). -/
def widenWord (v : Nat) : Word := BitVec.ofNat 32 v

/-- `lb rt, offset(rs)` (R171). -/
def execLb (rt rs : Reg) (imm : BitVec 16) (s : State) : Result :=
  s.load (s.effAddr rs imm) 1 widenByte rt

/-- `lh rt, offset(rs)` (R172). -/
def execLh (rt rs : Reg) (imm : BitVec 16) (s : State) : Result :=
  s.load (s.effAddr rs imm) 2 widenHalf rt

/-- `lw rt, offset(rs)` (R173). -/
def execLw (rt rs : Reg) (imm : BitVec 16) (s : State) : Result :=
  s.load (s.effAddr rs imm) 4 widenWord rt

/-- `sb rt, offset(rs)` (R174): the low byte of rt (D10). -/
def execSb (rt rs : Reg) (imm : BitVec 16) (s : State) : Result :=
  s.store (s.effAddr rs imm) 1 (s.readReg rt).toNat

/-- `sw rt, offset(rs)` (R175). -/
def execSw (rt rs : Reg) (imm : BitVec 16) (s : State) : Result :=
  s.store (s.effAddr rs imm) 4 (s.readReg rt).toNat

end Sys2Proof.Machine
end

