-- ==== Sys2Proof/Machine/MulDiv.lean ====
section
/-! DEFINITION. Multiplication, division and the moves from HI and LO (41_muldiv.md; 10_state.md R31, R37). -/

namespace Sys2Proof.Machine

/-- The 64-bit two's-complement pattern of the exact signed product (41_muldiv.md R131). -/
def product (a b : Word) : BitVec 64 := BitVec.ofInt 64 (a.toInt * b.toInt)

/-- `mult rs, rt` (R131). -/
def execMult (rs rt : Reg) (s : State) : Result :=
  .next (s.setHiLo ((product (s.readReg rs) (s.readReg rt)).extractLsb' 32 32)
    ((product (s.readReg rs) (s.readReg rt)).extractLsb' 0 32)).advance

/-- `div rs, rt` (R132): quotient toward zero in LO, remainder with the dividend's sign in HI (D14). By zero:
`DivideByZero`, with free HI and LO (D16). -2^31 by -1: free HI and LO and no exception (D15). -/
def execDiv (rs rt : Reg) (s : State) : Result :=
  if (s.readReg rt).toInt = 0 then raise .divideByZero s.drawHiLo
  else if (s.readReg rs).toInt = -2 ^ 31 ∧ (s.readReg rt).toInt = -1 then .next s.drawHiLo.advance
  else
    .next (s.setHiLo (BitVec.ofInt 32 ((s.readReg rs).toInt.tmod (s.readReg rt).toInt))
      (BitVec.ofInt 32 ((s.readReg rs).toInt.tdiv (s.readReg rt).toInt))).advance

/-- `mfhi rd` (R133). -/
def execMfhi (rd : Reg) (s : State) : Result := s.finish rd s.hi

/-- `mflo rd` (R134). -/
def execMflo (rd : Reg) (s : State) : Result := s.finish rd s.lo

end Sys2Proof.Machine
end

