-- ==== Sys2Proof/Machine/Shift.lean ====
section
/-! DEFINITION. The shift instructions (42_shift.md). -/

namespace Sys2Proof.Machine

/-- `sll rd, rt, shamt` (R141). -/
def execSll (rd rt : Reg) (shamt : Nat) (s : State) : Result :=
  s.finish rd (shiftLeft (s.readReg rt) shamt)

/-- `srl rd, rt, shamt` (R142). -/
def execSrl (rd rt : Reg) (shamt : Nat) (s : State) : Result :=
  s.finish rd (shiftRight (s.readReg rt) shamt)

/-- `sllv rd, rs, rt` (R143): the value is in rs, the amount in rt (90_conflicts.md C6). -/
def execSllv (rd rs rt : Reg) (s : State) : Result :=
  s.finish rd (shiftLeft (s.readReg rs) (shiftAmount (s.readReg rt)))

end Sys2Proof.Machine
end

