-- ==== Sys2Proof/Machine/Stack.lean ====
section
/-! DEFINITION. The stack instructions (45_stack.md). -/

namespace Sys2Proof.Machine

/-- Decrement SP by 4, store `v` at the new SP, go on (R190). When the store is not admitted nothing happens. -/
def State.pushWord (s : State) (v : Word) : Result :=
  match s.memWrite s.pushAddr 4 v.toNat with
  | .error f => .fault f
  | .ok t => .next (t.writeReg spReg s.pushAddr).advance

/-- Read the word at SP, write it to `rt`, then SP plus 4 to register 29 (R191). -/
def State.popWord (s : State) (rt : Reg) : Result :=
  match s.memRead s.popAddr 4 with
  | .error f => .fault f
  | .ok v => .next ((s.writeReg rt (widenWord v)).writeReg spReg (s.popAddr + 4)).advance

/-- `pop $29` where register 29 ends with the loaded word (R192). -/
def State.popSelfLoaded (s : State) : Result := s.load s.popAddr 4 widenWord spReg

/-- `push rt` (R190); `push $29` by `STACK_SELF_OPERAND` (R192). -/
def execPush (rt : Reg) (s : State) : Result :=
  if rt = spReg then
    match s.params.stackSelf with
    | .refuse => .refused .stackSelfOperand
    | .run .oldSp _ => s.pushWord (s.readReg spReg)
    | .run .newSp _ => s.pushWord s.pushAddr
  else s.pushWord (s.readReg rt)

/-- `pop rt` (R191); `pop $29` by `STACK_SELF_OPERAND` (R192). -/
def execPop (rt : Reg) (s : State) : Result :=
  if rt = spReg then
    match s.params.stackSelf with
    | .refuse => .refused .stackSelfOperand
    | .run _ .loaded => s.popSelfLoaded
    | .run _ .incremented => s.popWord spReg
  else s.popWord rt

end Sys2Proof.Machine
end

