-- ==== Sys2Proof/Machine/System.lean ====
section
/-! DEFINITION. The system instructions (46_system.md): `rte` is the only one (R201). -/

namespace Sys2Proof.Machine

/-- `rte` (R200; 60_exceptions.md R219): unprivileged, EPC keeps its value. -/
def execRte (s : State) : Result := .next (returnFromException s)

end Sys2Proof.Machine
end

