-- ==== Sys2Proof/Syntax.lean ====
section
/-! DEFINITION. The 29 instructions, one constructor per row of spec/opcode_table.json (30_encoding.md R88). Operands
stand in the order of the assembly form (R93); a load's or store's `offset(rs)` is `rs imm`. -/

namespace Sys2Proof

/-- One instruction. `imm` is the 16-bit field [15:0], `target` the 26-bit field [25:0] (R82, R83); `shamt` is the
5-bit shift amount as a number, which `Instr.wf` bounds (R81). -/
inductive Instr where
  | add (rd rs rt : Reg)
  | and (rd rs rt : Reg)
  | div (rs rt : Reg)
  | mult (rs rt : Reg)
  | jr (rs : Reg)
  | mfhi (rd : Reg)
  | mflo (rd : Reg)
  | sll (rd rt : Reg) (shamt : Nat)
  | sllv (rd rs rt : Reg)
  | slt (rd rs rt : Reg)
  | srl (rd rt : Reg) (shamt : Nat)
  | sub (rd rs rt : Reg)
  | rte
  | push (rt : Reg)
  | pop (rt : Reg)
  | addi (rt rs : Reg) (imm : BitVec 16)
  | beq (rs rt : Reg) (imm : BitVec 16)
  | bne (rs rt : Reg) (imm : BitVec 16)
  | ble (rs rt : Reg) (imm : BitVec 16)
  | bgt (rs rt : Reg) (imm : BitVec 16)
  | lb (rt rs : Reg) (imm : BitVec 16)
  | lh (rt rs : Reg) (imm : BitVec 16)
  | lui (rt : Reg) (imm : BitVec 16)
  | lw (rt rs : Reg) (imm : BitVec 16)
  | sb (rt rs : Reg) (imm : BitVec 16)
  | slti (rt rs : Reg) (imm : BitVec 16)
  | sw (rt rs : Reg) (imm : BitVec 16)
  | j (target : BitVec 26)
  | jal (target : BitVec 26)
deriving DecidableEq, Repr

end Sys2Proof
end

