-- ==== Sys2Proof/Machine/Dispatch.lean ====
section
/-! DEFINITION. One arm per instruction of the opcode table, each one call of its meaning. -/

namespace Sys2Proof.Machine

/-- The effect of one instruction on the state whose pc is its address (00_scope.md R14). -/
def exec (i : Instr) (s : State) : Host.Outcome State Fault Refusal :=
  match i with
  | .add rd rs rt => Sys2Proof.Machine.execAdd rd rs rt s
  | .and rd rs rt => Sys2Proof.Machine.execAnd rd rs rt s
  | .div rs rt => Sys2Proof.Machine.execDiv rs rt s
  | .mult rs rt => Sys2Proof.Machine.execMult rs rt s
  | .jr rs => Sys2Proof.Machine.execJr rs s
  | .mfhi rd => Sys2Proof.Machine.execMfhi rd s
  | .mflo rd => Sys2Proof.Machine.execMflo rd s
  | .sll rd rt shamt => Sys2Proof.Machine.execSll rd rt shamt s
  | .sllv rd rs rt => Sys2Proof.Machine.execSllv rd rs rt s
  | .slt rd rs rt => Sys2Proof.Machine.execSlt rd rs rt s
  | .srl rd rt shamt => Sys2Proof.Machine.execSrl rd rt shamt s
  | .sub rd rs rt => Sys2Proof.Machine.execSub rd rs rt s
  | .rte => Sys2Proof.Machine.execRte s
  | .push rt => Sys2Proof.Machine.execPush rt s
  | .pop rt => Sys2Proof.Machine.execPop rt s
  | .addi rt rs imm => Sys2Proof.Machine.execAddi rt rs imm s
  | .beq rs rt imm => Sys2Proof.Machine.execBeq rs rt imm s
  | .bne rs rt imm => Sys2Proof.Machine.execBne rs rt imm s
  | .ble rs rt imm => Sys2Proof.Machine.execBle rs rt imm s
  | .bgt rs rt imm => Sys2Proof.Machine.execBgt rs rt imm s
  | .lb rt rs imm => Sys2Proof.Machine.execLb rt rs imm s
  | .lh rt rs imm => Sys2Proof.Machine.execLh rt rs imm s
  | .lui rt imm => Sys2Proof.Machine.execLui rt imm s
  | .lw rt rs imm => Sys2Proof.Machine.execLw rt rs imm s
  | .sb rt rs imm => Sys2Proof.Machine.execSb rt rs imm s
  | .slti rt rs imm => Sys2Proof.Machine.execSlti rt rs imm s
  | .sw rt rs imm => Sys2Proof.Machine.execSw rt rs imm s
  | .j target => Sys2Proof.Machine.execJ target s
  | .jal target => Sys2Proof.Machine.execJal target s

end Sys2Proof.Machine
end

