-- ==== Sys2Proof/WellFormed.lean ====
section
/-! DEFINITION. Which instruction terms an encoding can hold. Register numbers, immediates and targets are bounded by
their types; the shift amount is a number and is bounded here. -/

namespace Sys2Proof

/-- The shift amount of `sll` and `srl` fits its 5-bit field (30_encoding.md R81; 42_shift.md R140). -/
def Instr.wf : Instr → Bool
  | .sll _ _ shamt => shamt < 32
  | .srl _ _ shamt => shamt < 32
  | .add .. | .and .. | .div .. | .mult .. | .jr .. | .mfhi .. | .mflo .. | .sllv .. | .slt .. | .sub ..
  | .rte | .push .. | .pop .. | .addi .. | .beq .. | .bne .. | .ble .. | .bgt .. | .lb .. | .lh .. | .lui ..
  | .lw .. | .sb .. | .slti .. | .sw .. | .j .. | .jal .. => true

end Sys2Proof
end

