-- ==== Sys2Proof/Decode.lean ====
section
/-! DEFINITION. Decoding by opcode and funct only (30_encoding.md R85 to R90), total, rejecting by name; and the encoder,
which writes 0 in every unused field (R89). -/

namespace Sys2Proof

/-- `w[hi:lo]`, the unsigned value of a bit range (00_scope.md R7). -/
def bits (w : Word) (hi lo : Nat) : Nat := w.toNat / 2 ^ lo % 2 ^ (hi + 1 - lo)

/-- Bits [31:26] (R81). -/
def opcodeOf (w : Word) : Nat := bits w 31 26

/-- Bits [5:0] (R81). -/
def functOf (w : Word) : Nat := bits w 5 0

/-- Bits [25:21] (R81). -/
def rsOf (w : Word) : Reg := Fin.ofNat 32 (bits w 25 21)

/-- Bits [20:16] (R81). -/
def rtOf (w : Word) : Reg := Fin.ofNat 32 (bits w 20 16)

/-- Bits [15:11] (R81). -/
def rdOf (w : Word) : Reg := Fin.ofNat 32 (bits w 15 11)

/-- Bits [10:6] (R81). -/
def shamtOf (w : Word) : Nat := bits w 10 6

/-- Bits [15:0] (R82). -/
def immOf (w : Word) : BitVec 16 := BitVec.ofNat 16 (bits w 15 0)

/-- Bits [25:0] (R83). -/
def targetOf (w : Word) : BitVec 26 := BitVec.ofNat 26 (bits w 25 0)

/-- Why a word or a list of bytes holds no instruction. -/
inductive Reject where
  /-- One of the 49 undefined opcodes (R85, R90). -/
  | nonexistentOpcode (opcode : Nat)
  /-- Opcode 0 with one of the 49 undefined functs (R87, R90). -/
  | nonexistentFunct (funct : Nat)
  /-- Fewer than the four bytes of a word (R80); no fetch produces this. -/
  | truncated
deriving DecidableEq, Repr

/-- The R-format rows, by funct (R87). -/
def decodeFunct (w : Word) : Except Reject Instr :=
  match functOf w with
  | 0x00 => .ok (.sll (rdOf w) (rtOf w) (shamtOf w))
  | 0x02 => .ok (.srl (rdOf w) (rtOf w) (shamtOf w))
  | 0x04 => .ok (.sllv (rdOf w) (rsOf w) (rtOf w))
  | 0x05 => .ok (.push (rtOf w))
  | 0x06 => .ok (.pop (rtOf w))
  | 0x08 => .ok (.jr (rsOf w))
  | 0x10 => .ok (.mfhi (rdOf w))
  | 0x12 => .ok (.mflo (rdOf w))
  | 0x13 => .ok .rte
  | 0x18 => .ok (.mult (rsOf w) (rtOf w))
  | 0x1a => .ok (.div (rsOf w) (rtOf w))
  | 0x20 => .ok (.add (rdOf w) (rsOf w) (rtOf w))
  | 0x22 => .ok (.sub (rdOf w) (rsOf w) (rtOf w))
  | 0x24 => .ok (.and (rdOf w) (rsOf w) (rtOf w))
  | 0x2a => .ok (.slt (rdOf w) (rsOf w) (rtOf w))
  | fn => .error (.nonexistentFunct fn)

/-- The instruction a word holds (R86). -/
def decodeWord (w : Word) : Except Reject Instr :=
  match opcodeOf w with
  | 0x00 => decodeFunct w
  | 0x02 => .ok (.j (targetOf w))
  | 0x03 => .ok (.jal (targetOf w))
  | 0x04 => .ok (.beq (rsOf w) (rtOf w) (immOf w))
  | 0x05 => .ok (.bne (rsOf w) (rtOf w) (immOf w))
  | 0x06 => .ok (.ble (rsOf w) (rtOf w) (immOf w))
  | 0x07 => .ok (.bgt (rsOf w) (rtOf w) (immOf w))
  | 0x08 => .ok (.addi (rtOf w) (rsOf w) (immOf w))
  | 0x0a => .ok (.slti (rtOf w) (rsOf w) (immOf w))
  | 0x0f => .ok (.lui (rtOf w) (immOf w))
  | 0x20 => .ok (.lb (rtOf w) (rsOf w) (immOf w))
  | 0x21 => .ok (.lh (rtOf w) (rsOf w) (immOf w))
  | 0x23 => .ok (.lw (rtOf w) (rsOf w) (immOf w))
  | 0x28 => .ok (.sb (rtOf w) (rsOf w) (immOf w))
  | 0x2b => .ok (.sw (rtOf w) (rsOf w) (immOf w))
  | op => .error (.nonexistentOpcode op)

/-- The instruction at the head of a list of bytes, lowest address first, and the bytes after it (R80). -/
def decodeBytes (o : ByteOrder) : List Byte → Except Reject (Instr × List Byte)
  | b0 :: b1 :: b2 :: b3 :: rest =>
    match decodeWord (BitVec.ofNat 32 (Machine.joinBytes o [b0, b1, b2, b3])) with
    | .ok i => .ok (i, rest)
    | .error e => .error e
  | _ => .error .truncated

/-- The R-format word with opcode 0 (R81). -/
def encodeR (rs rt rd : Reg) (shamt funct : Nat) : Word :=
  BitVec.ofNat 32 (rs.val * 2 ^ 21 + rt.val * 2 ^ 16 + rd.val * 2 ^ 11 + shamt % 32 * 2 ^ 6 + funct)

/-- The I-format word (R82). -/
def encodeI (opcode : Nat) (rs rt : Reg) (imm : BitVec 16) : Word :=
  BitVec.ofNat 32 (opcode * 2 ^ 26 + rs.val * 2 ^ 21 + rt.val * 2 ^ 16 + imm.toNat)

/-- The J-format word (R83). -/
def encodeJ (opcode : Nat) (target : BitVec 26) : Word :=
  BitVec.ofNat 32 (opcode * 2 ^ 26 + target.toNat)

/-- The canonical word of an instruction: the pattern column of R88, 0 in every unused field. -/
def encode : Instr → Word
  | .add rd rs rt => encodeR rs rt rd 0 0x20
  | .and rd rs rt => encodeR rs rt rd 0 0x24
  | .div rs rt => encodeR rs rt 0 0 0x1a
  | .mult rs rt => encodeR rs rt 0 0 0x18
  | .jr rs => encodeR rs 0 0 0 0x08
  | .mfhi rd => encodeR 0 0 rd 0 0x10
  | .mflo rd => encodeR 0 0 rd 0 0x12
  | .sll rd rt shamt => encodeR 0 rt rd shamt 0x00
  | .sllv rd rs rt => encodeR rs rt rd 0 0x04
  | .slt rd rs rt => encodeR rs rt rd 0 0x2a
  | .srl rd rt shamt => encodeR 0 rt rd shamt 0x02
  | .sub rd rs rt => encodeR rs rt rd 0 0x22
  | .rte => encodeR 0 0 0 0 0x13
  | .push rt => encodeR 0 rt 0 0 0x05
  | .pop rt => encodeR 0 rt 0 0 0x06
  | .addi rt rs imm => encodeI 0x08 rs rt imm
  | .beq rs rt imm => encodeI 0x04 rs rt imm
  | .bne rs rt imm => encodeI 0x05 rs rt imm
  | .ble rs rt imm => encodeI 0x06 rs rt imm
  | .bgt rs rt imm => encodeI 0x07 rs rt imm
  | .lb rt rs imm => encodeI 0x20 rs rt imm
  | .lh rt rs imm => encodeI 0x21 rs rt imm
  | .lui rt imm => encodeI 0x0f 0 rt imm
  | .lw rt rs imm => encodeI 0x23 rs rt imm
  | .sb rt rs imm => encodeI 0x28 rs rt imm
  | .slti rt rs imm => encodeI 0x0a rs rt imm
  | .sw rt rs imm => encodeI 0x2b rs rt imm
  | .j target => encodeJ 0x02 target
  | .jal target => encodeJ 0x03 target

/-- The bytes of an instruction's canonical word, lowest address first (R80). -/
def encodeBytes (o : ByteOrder) (i : Instr) : List Byte := Machine.splitBytes o 4 (encode i).toNat

/-- What the decoder reads from an instruction whose bits are `w`, bit 0 the least significant bit of its one word;
bits above `nbits` are 0. The word is laid out in the byte order of the machine State.reset starts. -/
def decodeTableWord (nbits w : Nat) : Option Instr :=
  match decodeBytes Machine.defaultParams.byteOrder
      (Machine.splitBytes Machine.defaultParams.byteOrder 4 (w % 2 ^ nbits)) with
  | .ok (i, _) => some i
  | .error _ => none

end Sys2Proof
end

