-- ==== Sys2Proof/Machine/Fetch.lean ====
section
/-! DEFINITION. Fetching the word at pc (00_scope.md R14; 30_encoding.md R80; 20_memory.md R65), and placing one there. -/

namespace Sys2Proof.Machine

/-- `w := MemRead(A, 4)`. -/
def State.fetch (s : State) : Except Fault Word :=
  match s.memRead s.pc 4 with
  | .error f => .error f
  | .ok v => .ok (BitVec.ofNat 32 v)

/-- The state with the word `w` stored at pc; unchanged where no memory backs it. -/
def State.placeWord (s : State) (w : Word) : State :=
  match s.memWrite s.pc 4 w.toNat with
  | .error _ => s
  | .ok t => t

end Sys2Proof.Machine
end

