-- ==== Sys2Proof/Machine/Step.lean ====
section
/-! DEFINITION. One step: fetch, decode, execute one instruction to completion (00_scope.md R14;
70_reset_and_hazards.md R246). -/

namespace Sys2Proof.Machine

/-- One step. A word that selects no instruction raises `NonexistentOpcode` (30_encoding.md R86, R90). -/
def step (s : State) : Host.Outcome State Fault Refusal :=
  match s.fetch with
  | .error f => .fault f
  | .ok w =>
    match decodeWord w with
    | .error _ => raise .nonexistentOpcode s
    | .ok i => exec i s

/-- `s` with the instruction whose bits are `w` (those above `nbits` zero) stored at pc, where `step` fetches it. -/
def State.withFetchWord (s : State) (nbits w : Nat) : State :=
  s.placeWord (BitVec.ofNat 32 (w % 2 ^ nbits))

end Sys2Proof.Machine
end

