-- ==== Sys2Proof/Machine/Assembly.lean ====
section
/-! DEFINITION. The assembly form of an instruction (30_encoding.md R93). It is text for a reader: no step reads it. A
register is written $n and the last operand of a branch or jump is the raw field value, as the spec's listings do. -/

namespace Sys2Proof

/-- A register as the spec writes it. -/
def asmReg (r : Reg) : String := "$" ++ toString r.val

/-- A signed immediate or displacement in decimal. -/
def asmImm (imm : BitVec 16) : String := toString imm.toInt

/-- `mnemonic a,b,c`. -/
def asmRow (mnemonic : String) (operands : List String) : String :=
  mnemonic ++ " " ++ ",".intercalate operands

/-- The operand `offset(rs)`. -/
def asmAddr (imm : BitVec 16) (rs : Reg) : String := asmImm imm ++ "(" ++ asmReg rs ++ ")"

/-- The assembly form (R93). -/
def asm : Instr → String
  | .add rd rs rt => asmRow "add" [asmReg rd, asmReg rs, asmReg rt]
  | .and rd rs rt => asmRow "and" [asmReg rd, asmReg rs, asmReg rt]
  | .div rs rt => asmRow "div" [asmReg rs, asmReg rt]
  | .mult rs rt => asmRow "mult" [asmReg rs, asmReg rt]
  | .jr rs => asmRow "jr" [asmReg rs]
  | .mfhi rd => asmRow "mfhi" [asmReg rd]
  | .mflo rd => asmRow "mflo" [asmReg rd]
  | .sll rd rt shamt => asmRow "sll" [asmReg rd, asmReg rt, toString shamt]
  | .sllv rd rs rt => asmRow "sllv" [asmReg rd, asmReg rs, asmReg rt]
  | .slt rd rs rt => asmRow "slt" [asmReg rd, asmReg rs, asmReg rt]
  | .srl rd rt shamt => asmRow "srl" [asmReg rd, asmReg rt, toString shamt]
  | .sub rd rs rt => asmRow "sub" [asmReg rd, asmReg rs, asmReg rt]
  | .rte => "rte"
  | .push rt => asmRow "push" [asmReg rt]
  | .pop rt => asmRow "pop" [asmReg rt]
  | .addi rt rs imm => asmRow "addi" [asmReg rt, asmReg rs, asmImm imm]
  | .beq rs rt imm => asmRow "beq" [asmReg rs, asmReg rt, asmImm imm]
  | .bne rs rt imm => asmRow "bne" [asmReg rs, asmReg rt, asmImm imm]
  | .ble rs rt imm => asmRow "ble" [asmReg rs, asmReg rt, asmImm imm]
  | .bgt rs rt imm => asmRow "bgt" [asmReg rs, asmReg rt, asmImm imm]
  | .lb rt rs imm => asmRow "lb" [asmReg rt, asmAddr imm rs]
  | .lh rt rs imm => asmRow "lh" [asmReg rt, asmAddr imm rs]
  | .lui rt imm => asmRow "lui" [asmReg rt, toString imm.toNat]
  | .lw rt rs imm => asmRow "lw" [asmReg rt, asmAddr imm rs]
  | .sb rt rs imm => asmRow "sb" [asmReg rt, asmAddr imm rs]
  | .slti rt rs imm => asmRow "slti" [asmReg rt, asmReg rs, asmImm imm]
  | .sw rt rs imm => asmRow "sw" [asmReg rt, asmAddr imm rs]
  | .j target => asmRow "j" [toString target.toNat]
  | .jal target => asmRow "jal" [toString target.toNat]

end Sys2Proof
end

