-- ==== Sys2Proof/Machine/Datapath.lean ====
section
/-! DEFINITION. The datapath's control signals, transcribed from 10_state.md R41 and R42, with the function codes of the
ALU and of the shift register (R35, R36). They are information about the implementation: no step reads them, and the spec
gives no state machine that drives them (R40, R43; log 26). A code a table does not list has no value (log 27). -/

namespace Sys2Proof.Machine

/-- The ALU function selected by F (R35). -/
def aluFnOfCode (f : BitVec 3) : AluFn :=
  if f = 0 then .load
  else if f = 1 then .add
  else if f = 2 then .sub
  else if f = 3 then .and
  else if f = 4 then .inc
  else if f = 5 then .not
  else if f = 6 then .xor
  else .comp

/-- The shift-register function selected by `shift` (R36). -/
def shiftFnOfCode (c : BitVec 3) : Option ShiftFn :=
  if c = 0 then some .nothing
  else if c = 1 then some .load
  else if c = 2 then some .left
  else if c = 3 then some .rightLogical
  else if c = 4 then some .rightArithmetic
  else if c = 5 then some .rotateRight
  else if c = 6 then some .rotateLeft
  else none

/-- What ALUOp asks for (R42). The OR has no ALU function (90_conflicts.md C3). -/
inductive AluRequest where
  | add
  | sub
  | byFunct
  | compare
  | and
  | or
deriving DecidableEq, Repr

/-- ALUOp (R42). -/
def aluRequestOf (op : BitVec 3) : Option AluRequest :=
  if op = 0 then some .add
  else if op = 1 then some .sub
  else if op = 2 then some .byFunct
  else if op = 3 then some .compare
  else if op = 4 then some .and
  else if op = 5 then some .or
  else none

/-- RegDst: the register the write goes to (R41). -/
def writeRegister (regDst : Bool) (rt rd : Reg) : Reg := if regDst then rd else rt

/-- MemToReg: the value at the registers' input "Write data" (R41). -/
def writeData (memToReg : Bool) (aluOut mdr : Word) : Word := if memToReg then mdr else aluOut

/-- ALUSrcA: the first ALU operand (R41). -/
def aluInputA (aluSrcA : Bool) (pc a : Word) : Word := if aluSrcA then a else pc

/-- ALUSrcB: the second ALU operand, from `B`, the constant 4 or the low 16 bits of `IR` (R42). -/
def aluInputB (aluSrcB : BitVec 2) (b : Word) (imm : BitVec 16) : Word :=
  if aluSrcB = 0 then b
  else if aluSrcB = 1 then 4
  else if aluSrcB = 2 then immWord imm
  else immWord imm <<< 2

/-- IorD: the address given to the memory (R41). -/
def memoryAddress (iorD : Bool) (pc aluOut : Word) : Word := if iorD then aluOut else pc

/-- MemRead: what is on the memory's output, nothing or the datum at the given address (R41), a word in the machine's byte
order (20_memory.md R50, R54). -/
def memoryOutput (memRead : Bool) (s : State) (addr : Word) : Except Fault (Option Word) :=
  if memRead then (s.memRead addr 4).map fun v => some (BitVec.ofNat 32 v) else .ok none

/-- MemWrite: the memory after the datum at the given address is replaced by what is on "Write data", or as it was (R41). -/
def memoryAfter (memWrite : Bool) (s : State) (addr v : Word) : Except Fault State :=
  if memWrite then s.memWrite addr 4 v.toNat else .ok s

/-- RegWrite: the registers after the register at "Write register" receives "Write data", or as they were (R41). -/
def registersAfter (regWrite : Bool) (s : State) (r : Reg) (v : Word) : State :=
  if regWrite then s.writeReg r v else s

/-- IRWrite: what `IR` holds, the memory's output or what it held (R41). -/
def irAfter (irWrite : Bool) (ir output : Word) : Word := if irWrite then output else ir

/-- PCWrite and PCWriteCond: whether `PC` is written, from the ALU's Zero output (R41). -/
def pcWritten (pcWrite pcWriteCond zero : Bool) : Bool := pcWrite || (pcWriteCond && zero)

/-- PCSource: the value sent to `PC` (R42). `nextPc` is PC + 4. -/
def pcInput (pcSource : BitVec 2) (aluResult aluOut nextPc : Word) (target : BitVec 26) : Option Word :=
  if pcSource = 0 then some aluResult
  else if pcSource = 1 then some aluOut
  else if pcSource = 2 then some (nextPc.extractLsb' 28 4 ++ target ++ 0#2)
  else none

/-- The divider's output that says a division by zero happened (R37). -/
def dividerZero (divisor : Word) : Bool := flagZ divisor

end Sys2Proof.Machine
end

