-- ==== Sys2Proof/Machine/Launch.lean ====
section
/-! DEFINITION. The launch state (70_reset_and_hazards.md R240; 10_state.md R45): State.reset with the values that
RESET_PC, RESET_REGS and RESET_MEM give (log 25). -/

namespace Sys2Proof.Machine

/-- The launch arguments. A register or byte they do not give keeps State.reset's value. -/
structure Launch where
  /-- The machine's parameters (00_scope.md R6). -/
  params : Params
  /-- `RESET_PC`. -/
  pc : Word
  /-- `RESET_REGS`, the general registers. -/
  regs : List (Reg × Word) := []
  /-- `RESET_REGS`, `HI`. -/
  hi : Option Word := none
  /-- `RESET_REGS`, `LO`. -/
  lo : Option Word := none
  /-- `RESET_REGS`, `EPC`. -/
  epc : Option Word := none
  /-- `RESET_MEM`; a byte at or above `MEM_SIZE` is no part of it. -/
  mem : List Host.Cell := []
deriving DecidableEq, Repr

/-- Write each listed register. -/
def State.writeRegs (s : State) : List (Reg × Word) → State
  | [] => s
  | (r, v) :: rs => State.writeRegs (s.writeReg r v) rs

/-- The state a model starts from under given launch arguments (R240). -/
def launch (l : Launch) : State :=
  State.writeRegs
    { State.reset with
      params := l.params
      pc := l.pc
      hi := l.hi.getD State.reset.hi
      lo := l.lo.getD State.reset.lo
      epc := l.epc.getD State.reset.epc
      mem := Memory.writeAll [] (l.mem.filter fun c => decide (c.1 < l.params.memSize)) } l.regs

end Sys2Proof.Machine
end

