-- ==== Sys2Proof/Machine/Timing.lean ====
section
/-! DEFINITION. The cycle counts of 70_reset_and_hazards.md R248, transcribed. No step reads them: timing is not
modelled (log 26). -/

namespace Sys2Proof.Machine

/-- The column "Ciclos" of the source (R248). -/
def cycles : Instr → Nat
  | .mfhi .. | .mflo .. | .rte | .j .. | .jal .. => 2
  | .add .. | .and .. | .div .. | .mult .. | .jr .. | .slt .. | .sub .. | .push .. | .addi .. | .beq .. | .bne ..
  | .ble .. | .bgt .. | .lui .. | .slti .. | .sw .. => 3
  | .sll .. | .sllv .. | .srl .. | .pop .. | .lw .. => 4
  | .lb .. | .lh .. => 5
  | .sb .. => 6

end Sys2Proof.Machine
end

