-- ==== Sys2Proof/Safety.lean ====
section
/-! DEFINITION. What claims are stated in terms of: the invariant of a run, the end of a run
(70_reset_and_hazards.md R244), and a step that completes. -/

namespace Sys2Proof.Machine

/-- What every step keeps: the parameters are ones the spec admits (00_scope.md R6), the memory is in canonical form and
lists no byte outside `MEM_SIZE` (20_memory.md R52), and a hard-wired register 0 holds no value but 0 (10_state.md R22). -/
abbrev State.inv (s : State) : Prop :=
  s.params.wf ∧ s.mem.wf ∧ (∀ c ∈ s.mem, c.1 < s.params.memSize) ∧ (s.params.r0Hardwired = true → s.regs[0] = 0)

/-- The run has ended: the word at pc is a `j` whose target is pc itself (R244). This says nothing about the hardware. -/
def State.ended (s : State) : Prop :=
  ∃ w target, s.fetch = .ok w ∧ decodeWord w = .ok (.j target) ∧ s.jumpTarget target = s.pc

/-- The step neither faults nor is refused. -/
def Completes (r : Host.Outcome State Fault Refusal) : Prop := ∃ t, r = .next t

end Sys2Proof.Machine
end

