-- ==== Sys2Proof/Certificates/Slice0/Obligations.lean ====
section
/-! DEFINITION. The statements for the provers. The words they share stand first, under Sys2Proof.Claims; each is written
from the spec's text and from the state's observables (what a register or a byte reads, pc, HI, LO, EPC), not from the
meanings. Where a statement rests on a decision of the spec (92_eei_decisions.md) or on a choice of the model, its
docstring says so. -/

namespace Sys2Proof.Claims

open Sys2Proof.Machine

/-- Every general register reads the same. -/
def SameRegs (s t : State) : Prop := ∀ r, t.readReg r = s.readReg r

/-- Register `dest` reads `v` and every other register reads as before; a hard-wired register 0 keeps its 0
(10_state.md R22). -/
def RegsAfter (s t : State) (dest : Reg) (v : Word) : Prop :=
  ∀ r, t.readReg r = if r = dest ∧ ¬(s.params.r0Hardwired = true ∧ r = 0) then v else s.readReg r

/-- `HI` and `LO` are unchanged, and no free value was drawn. -/
def SameHiLo (s t : State) : Prop := t.hi = s.hi ∧ t.lo = s.lo ∧ t.draws = s.draws

/-- Every byte of memory reads the same. -/
def SameMem (s t : State) : Prop := ∀ a, t.mem.read a = s.mem.read a

/-- One general register takes a value, pc goes to A + 4, nothing else changes. -/
def WritesReg (s t : State) (dest : Reg) (v : Word) : Prop :=
  RegsAfter s t dest v ∧ t.pc = s.pc + 4 ∧ SameHiLo s t ∧ t.epc = s.epc ∧ SameMem s t ∧ t.params = s.params

/-- pc takes a value, nothing else changes. -/
def MovesPc (s t : State) (p : Word) : Prop :=
  t.pc = p ∧ SameRegs s t ∧ SameHiLo s t ∧ t.epc = s.epc ∧ SameMem s t ∧ t.params = s.params

/-- The vector byte at `vec` is backed and holds a value (60_exceptions.md R217). -/
def VectorReady (s : State) (vec : Nat) : Prop := vec < s.params.memSize ∧ ∃ b, s.mem.read vec = some b

/-- The entry sequence of 60_exceptions.md R214 and R215 through the byte at `vec`; HI and LO are not spoken of. -/
def Enters (s t : State) (vec : Nat) : Prop :=
  (∃ b, s.mem.read vec = some b ∧ t.pc = BitVec.setWidth 32 b) ∧ t.epc = s.pc ∧
  SameRegs s t ∧ SameMem s t ∧ t.params = s.params

/-- The mathematical result fits 32 bits signed (40_alu.md R112). -/
def Fits (x : Int) : Prop := -2 ^ 31 ≤ x ∧ x ≤ 2 ^ 31 - 1

/-- Every word of this row decodes so: opcode 0, this funct, and 0 in the fields the instruction does not use
(30_encoding.md R87, R88). -/
def RowR (funct : Nat) (unused : Word → List Nat) (i : Word → Instr) : Prop :=
  ∀ w, opcodeOf w = 0 → functOf w = funct → (∀ n ∈ unused w, n = 0) → decodeWord w = .ok (i w)

/-- Every word of this row decodes so: this nonzero opcode, and 0 in the fields the instruction does not use
(30_encoding.md R85, R88). -/
def RowIJ (opcode : Nat) (unused : Word → List Nat) (i : Word → Instr) : Prop :=
  ∀ w, opcodeOf w = opcode → (∀ n ∈ unused w, n = 0) → decodeWord w = .ok (i w)

/-- The k-th byte address of an access at `ea` (20_memory.md R54). -/
def byteAddr (ea : Word) (k : Nat) : Nat := (ea.toNat + k) % 2 ^ 32

/-- The k-th byte of an access at `ea` is backed and holds `b`. -/
def Holds (s : State) (ea : Word) (k : Nat) (b : Byte) : Prop :=
  byteAddr ea k < s.params.memSize ∧ s.mem.read (byteAddr ea k) = some b

/-- Every byte of an access of `n` bytes at `ea` is backed (20_memory.md R52). -/
def Backed (s : State) (ea : Word) (n : Nat) : Prop := ∀ k < n, byteAddr ea k < s.params.memSize

/-- Two bytes as a halfword, the first at the lower address (20_memory.md R54). -/
def half (o : ByteOrder) (b0 b1 : Byte) : BitVec 16 :=
  match o with
  | .little => b1 ++ b0
  | .big => b0 ++ b1

/-- Four bytes as a word, the first at the lowest address (20_memory.md R54). -/
def word (o : ByteOrder) (b0 b1 b2 b3 : Byte) : Word :=
  match o with
  | .little => b3 ++ b2 ++ b1 ++ b0
  | .big => b0 ++ b1 ++ b2 ++ b3

/-- The byte of a word that a store puts at the k-th address (20_memory.md R55). -/
def byteOf (o : ByteOrder) (v : Word) (k : Nat) : Byte :=
  match o with
  | .little => v.extractLsb' (8 * k) 8
  | .big => v.extractLsb' (8 * (3 - k)) 8

/-- The four bytes at `ea` take the word `v` and every other byte of memory reads as before. -/
def StoresWord (s t : State) (ea : Word) (v : Word) : Prop :=
  (∀ k < 4, t.mem.read (byteAddr ea k) = some (byteOf s.params.byteOrder v k)) ∧
  ∀ a, (∀ k < 4, a ≠ byteAddr ea k) → t.mem.read a = s.mem.read a

/-- The effective address (44_loadstore.md R170). -/
def ea (s : State) (rs : Reg) (imm : BitVec 16) : Word := s.readReg rs + imm.signExtend 32

/-- Where control goes: the branch target when `taken`, else the next instruction (43_control.md R150). -/
def branchPc (s : State) (taken : Prop) [Decidable taken] (imm : BitVec 16) : Word :=
  if taken then s.pc + 4 + (imm.signExtend 32) <<< 2 else s.pc + 4

/-- The jump target (43_control.md R155). -/
def jumpPc (s : State) (target : BitVec 26) : Word := (s.pc + 4).extractLsb' 28 4 ++ target ++ 0#2

/-- The word `w` selects the row of `i` and holds its operands in the fields of 30_encoding.md R81 to R83, R88. -/
def Matches (w : Word) : Instr → Prop
  | .add rd rs rt => opcodeOf w = 0 ∧ functOf w = 0x20 ∧ rdOf w = rd ∧ rsOf w = rs ∧ rtOf w = rt
  | .and rd rs rt => opcodeOf w = 0 ∧ functOf w = 0x24 ∧ rdOf w = rd ∧ rsOf w = rs ∧ rtOf w = rt
  | .div rs rt => opcodeOf w = 0 ∧ functOf w = 0x1a ∧ rsOf w = rs ∧ rtOf w = rt
  | .mult rs rt => opcodeOf w = 0 ∧ functOf w = 0x18 ∧ rsOf w = rs ∧ rtOf w = rt
  | .jr rs => opcodeOf w = 0 ∧ functOf w = 0x08 ∧ rsOf w = rs
  | .mfhi rd => opcodeOf w = 0 ∧ functOf w = 0x10 ∧ rdOf w = rd
  | .mflo rd => opcodeOf w = 0 ∧ functOf w = 0x12 ∧ rdOf w = rd
  | .sll rd rt shamt => opcodeOf w = 0 ∧ functOf w = 0x00 ∧ rdOf w = rd ∧ rtOf w = rt ∧ shamtOf w = shamt
  | .sllv rd rs rt => opcodeOf w = 0 ∧ functOf w = 0x04 ∧ rdOf w = rd ∧ rsOf w = rs ∧ rtOf w = rt
  | .slt rd rs rt => opcodeOf w = 0 ∧ functOf w = 0x2a ∧ rdOf w = rd ∧ rsOf w = rs ∧ rtOf w = rt
  | .srl rd rt shamt => opcodeOf w = 0 ∧ functOf w = 0x02 ∧ rdOf w = rd ∧ rtOf w = rt ∧ shamtOf w = shamt
  | .sub rd rs rt => opcodeOf w = 0 ∧ functOf w = 0x22 ∧ rdOf w = rd ∧ rsOf w = rs ∧ rtOf w = rt
  | .rte => opcodeOf w = 0 ∧ functOf w = 0x13
  | .push rt => opcodeOf w = 0 ∧ functOf w = 0x05 ∧ rtOf w = rt
  | .pop rt => opcodeOf w = 0 ∧ functOf w = 0x06 ∧ rtOf w = rt
  | .addi rt rs imm => opcodeOf w = 0x08 ∧ rtOf w = rt ∧ rsOf w = rs ∧ immOf w = imm
  | .beq rs rt imm => opcodeOf w = 0x04 ∧ rsOf w = rs ∧ rtOf w = rt ∧ immOf w = imm
  | .bne rs rt imm => opcodeOf w = 0x05 ∧ rsOf w = rs ∧ rtOf w = rt ∧ immOf w = imm
  | .ble rs rt imm => opcodeOf w = 0x06 ∧ rsOf w = rs ∧ rtOf w = rt ∧ immOf w = imm
  | .bgt rs rt imm => opcodeOf w = 0x07 ∧ rsOf w = rs ∧ rtOf w = rt ∧ immOf w = imm
  | .lb rt rs imm => opcodeOf w = 0x20 ∧ rtOf w = rt ∧ rsOf w = rs ∧ immOf w = imm
  | .lh rt rs imm => opcodeOf w = 0x21 ∧ rtOf w = rt ∧ rsOf w = rs ∧ immOf w = imm
  | .lui rt imm => opcodeOf w = 0x0f ∧ rtOf w = rt ∧ immOf w = imm
  | .lw rt rs imm => opcodeOf w = 0x23 ∧ rtOf w = rt ∧ rsOf w = rs ∧ immOf w = imm
  | .sb rt rs imm => opcodeOf w = 0x28 ∧ rtOf w = rt ∧ rsOf w = rs ∧ immOf w = imm
  | .slti rt rs imm => opcodeOf w = 0x0a ∧ rtOf w = rt ∧ rsOf w = rs ∧ immOf w = imm
  | .sw rt rs imm => opcodeOf w = 0x2b ∧ rtOf w = rt ∧ rsOf w = rs ∧ immOf w = imm
  | .j target => opcodeOf w = 0x02 ∧ targetOf w = target
  | .jal target => opcodeOf w = 0x03 ∧ targetOf w = target

/-- The defined opcodes (30_encoding.md R85). -/
def definedOpcodes : List Nat :=
  [0x00, 0x02, 0x03, 0x04, 0x05, 0x06, 0x07, 0x08, 0x0a, 0x0f, 0x20, 0x21, 0x23, 0x28, 0x2b]

/-- The defined functs under opcode 0 (30_encoding.md R87). -/
def definedFuncts : List Nat :=
  [0x00, 0x02, 0x04, 0x05, 0x06, 0x08, 0x10, 0x12, 0x13, 0x18, 0x1a, 0x20, 0x22, 0x24, 0x2a]

/-- The column "writes" of 10_state.md R23: the general registers an instruction may write. -/
def writes : Instr → List Reg
  | .add rd _ _ | .sub rd _ _ | .and rd _ _ | .slt rd _ _ | .sllv rd _ _ | .sll rd _ _ | .srl rd _ _
  | .mfhi rd | .mflo rd => [rd]
  | .pop rt => [rt, 29]
  | .push _ => [29]
  | .addi rt _ _ | .slti rt _ _ | .lui rt _ | .lb rt _ _ | .lh rt _ _ | .lw rt _ _ => [rt]
  | .jal _ => [31]
  | .mult _ _ | .div _ _ | .jr _ | .rte | .sb _ _ _ | .sw _ _ _ | .beq _ _ _ | .bne _ _ _ | .ble _ _ _
  | .bgt _ _ _ | .j _ => []

/-- The column "reads" of 10_state.md R23: the general registers an instruction may read. -/
def reads : Instr → List Reg
  | .add _ rs rt | .sub _ rs rt | .and _ rs rt | .slt _ rs rt | .sllv _ rs rt | .mult rs rt | .div rs rt
  | .beq rs rt _ | .bne rs rt _ | .ble rs rt _ | .bgt rs rt _ => [rs, rt]
  | .sll _ rt _ | .srl _ rt _ => [rt]
  | .jr rs => [rs]
  | .push rt => [rt, 29]
  | .pop _ => [29]
  | .addi _ rs _ | .slti _ rs _ | .lb _ rs _ | .lh _ rs _ | .lw _ rs _ => [rs]
  | .sb rt rs _ | .sw rt rs _ => [rs, rt]
  | .mfhi _ | .mflo _ | .rte | .lui _ _ | .j _ | .jal _ => []

/-- The k-th byte of an access of `n` bytes at `ea` is the first that is not backed (20_memory.md R52). -/
def FirstUnbacked (s : State) (ea : Word) (n k : Nat) : Prop :=
  k < n ∧ (∀ j < k, byteAddr ea j < s.params.memSize) ∧ s.params.memSize ≤ byteAddr ea k

/-- An access of `n` bytes at `ea` is backed and its k-th byte is the first that holds no value (10_state.md R24). -/
def FirstUnwritten (s : State) (ea : Word) (n k : Nat) : Prop :=
  Backed s ea n ∧ k < n ∧ (∀ j < k, ∃ b, s.mem.read (byteAddr ea j) = some b) ∧ s.mem.read (byteAddr ea k) = none

/-- The instruction is a form that STACK_SELF_OPERAND refuses (45_stack.md R192). -/
def SelfRefused (s : State) (i : Instr) : Prop := s.params.stackSelf = .refuse ∧ (i = .push 29 ∨ i = .pop 29)

/-- The address an instruction loads from and how many bytes (20_memory.md R58). -/
def loadsFrom (s : State) : Instr → Option (Word × Nat)
  | .lb _ rs imm => some (ea s rs imm, 1)
  | .lh _ rs imm => some (ea s rs imm, 2)
  | .lw _ rs imm => some (ea s rs imm, 4)
  | .pop _ => some (s.readReg 29, 4)
  | .add .. | .sub .. | .and .. | .slt .. | .sllv .. | .sll .. | .srl .. | .mfhi .. | .mflo .. | .mult .. | .div ..
  | .jr .. | .rte | .push .. | .addi .. | .slti .. | .lui .. | .sb .. | .sw .. | .beq .. | .bne .. | .ble ..
  | .bgt .. | .j .. | .jal .. => none

/-- The address an instruction stores to and how many bytes (20_memory.md R58), computed as the meanings compute it. -/
def storesTo (s : State) : Instr → Option (Word × Nat)
  | .sb _ rs imm => some (s.effAddr rs imm, 1)
  | .sw _ rs imm => some (s.effAddr rs imm, 4)
  | .push _ => some (s.pushAddr, 4)
  | .add .. | .sub .. | .and .. | .slt .. | .sllv .. | .sll .. | .srl .. | .mfhi .. | .mflo .. | .mult .. | .div ..
  | .jr .. | .rte | .pop .. | .addi .. | .slti .. | .lui .. | .lb .. | .lh .. | .lw .. | .beq .. | .bne .. | .ble ..
  | .bgt .. | .j .. | .jal .. => none

/-- The vector byte address of the exception an instruction raises in a state, if it raises one: Overflow of `add`, `sub`,
`addi` (40_alu.md R112) and DivideByZero of `div` (41_muldiv.md R132). -/
def raises (s : State) : Instr → Option Nat
  | .add _ rs rt => if outOfRange ((s.readReg rs).toInt + (s.readReg rt).toInt) then some 254 else none
  | .sub _ rs rt => if outOfRange ((s.readReg rs).toInt - (s.readReg rt).toInt) then some 254 else none
  | .addi _ rs imm => if outOfRange ((s.readReg rs).toInt + (imm.signExtend 32).toInt) then some 254 else none
  | .div _ rt => if s.readReg rt = 0 then some 255 else none
  | .and .. | .slt .. | .sllv .. | .sll .. | .srl .. | .mfhi .. | .mflo .. | .mult .. | .jr .. | .rte | .push ..
  | .pop .. | .slti .. | .lui .. | .lb .. | .lh .. | .lw .. | .sb .. | .sw .. | .beq .. | .bne .. | .ble .. | .bgt ..
  | .j .. | .jal .. => none

/-- The new pc of an instruction that raises nothing (10_state.md R27, R28). -/
def pcAfter (s : State) : Instr → Word
  | .beq rs rt imm => branchPc s (s.readReg rs = s.readReg rt) imm
  | .bne rs rt imm => branchPc s (s.readReg rs ≠ s.readReg rt) imm
  | .ble rs rt imm => branchPc s ((s.readReg rs).toInt ≤ (s.readReg rt).toInt) imm
  | .bgt rs rt imm => branchPc s ((s.readReg rs).toInt > (s.readReg rt).toInt) imm
  | .j target | .jal target => jumpPc s target
  | .jr rs => s.readReg rs
  | .rte => s.epc
  | .add .. | .sub .. | .and .. | .slt .. | .sllv .. | .sll .. | .srl .. | .mfhi .. | .mflo .. | .mult .. | .div ..
  | .push .. | .pop .. | .addi .. | .slti .. | .lui .. | .lb .. | .lh .. | .lw .. | .sb .. | .sw .. => s.pc + 4

end Sys2Proof.Claims

open Sys2Proof Sys2Proof.Machine Sys2Proof.Claims

/-! Encoding -/

/-- Decoding the encoded word of any well-formed instruction gives it back, and so does decoding its bytes, in either byte
order, with the bytes after it left over. -/
def Obligations.DecodeOfEncodeIsIdentity : Prop :=
  ∀ i : Instr, i.wf = true → decodeWord (encode i) = .ok i ∧
    ∀ (o : ByteOrder) (rest : List Byte), decodeBytes o (encodeBytes o i ++ rest) = .ok (i, rest)

/-- A word decodes to an instruction exactly when it carries the row's opcode (and funct) and the operands in their fields:
no other bit is looked at. Rests on decision D5 for words with non-zero unused fields. -/
def Obligations.WordDecodesExactlyWhenFieldsMatch : Prop :=
  ∀ (w : Word) (i : Instr), decodeWord w = .ok i ↔ Matches w i

/-- A word decodes to nothing exactly when its opcode is undefined, or is 0 with an undefined funct; and it is named so.
Rests on decision D6 for the undefined functs, and on D5 (log 16) for words with non-zero unused fields, which decode all
the same. -/
def Obligations.UndefinedWordsAreRejected : Prop :=
  ∀ w : Word,
    (opcodeOf w ∉ definedOpcodes → decodeWord w = .error (.nonexistentOpcode (opcodeOf w))) ∧
    (opcodeOf w = 0 → functOf w ∉ definedFuncts → decodeWord w = .error (.nonexistentFunct (functOf w))) ∧
    (opcodeOf w ∈ definedOpcodes → (opcodeOf w = 0 → functOf w ∈ definedFuncts) → ∃ i, decodeWord w = .ok i)

/-- Words written out from the encoding tables decode to the instructions they stand for. -/
def Obligations.SampleWordsDecode : Prop :=
  decodeWord 0x00221820 = .ok (.add 3 1 2) ∧ decodeWord 0x0022001A = .ok (.div 1 2) ∧
  decodeWord 0x00021F02 = .ok (.srl 3 2 28) ∧ decodeWord 0x1422FFFF = .ok (.bne 1 2 0xFFFF) ∧
  decodeWord 0x8C22FFFC = .ok (.lw 2 1 0xFFFC) ∧ decodeWord 0x00020005 = .ok (.push 2) ∧
  decodeWord 0x00000013 = .ok .rte ∧ decodeWord 0x0C000007 = .ok (.jal 7)

/-! Arithmetic, logic, comparison, immediates (40_alu.md) -/

/-- `add`: the sum, or the entry for Overflow with nothing written. Rests on decisions D7, D8. -/
def Obligations.AddWritesSumOrRaisesOverflow : Prop :=
  ∀ (rd rs rt : Reg) (s : State),
    (Fits ((s.readReg rs).toInt + (s.readReg rt).toInt) →
      ∃ t, exec (.add rd rs rt) s = .next t ∧ WritesReg s t rd (s.readReg rs + s.readReg rt)) ∧
    (¬Fits ((s.readReg rs).toInt + (s.readReg rt).toInt) → VectorReady s 254 →
      ∃ t, exec (.add rd rs rt) s = .next t ∧ Enters s t 254 ∧ SameHiLo s t)

/-- `sub`: the difference, or the entry for Overflow with nothing written. Rests on decisions D7, D8. -/
def Obligations.SubWritesDifferenceOrRaisesOverflow : Prop :=
  ∀ (rd rs rt : Reg) (s : State),
    (Fits ((s.readReg rs).toInt - (s.readReg rt).toInt) →
      ∃ t, exec (.sub rd rs rt) s = .next t ∧ WritesReg s t rd (s.readReg rs - s.readReg rt)) ∧
    (¬Fits ((s.readReg rs).toInt - (s.readReg rt).toInt) → VectorReady s 254 →
      ∃ t, exec (.sub rd rs rt) s = .next t ∧ Enters s t 254 ∧ SameHiLo s t)

/-- `and` (R115): its encoding and its result. -/
def Obligations.AndWritesBitwiseAnd : Prop :=
  RowR 0x24 (fun w => [shamtOf w]) (fun w => .and (rdOf w) (rsOf w) (rtOf w)) ∧
  ∀ (rd rs rt : Reg) (s : State),
    ∃ t, exec (.and rd rs rt) s = .next t ∧ WritesReg s t rd (s.readReg rs &&& s.readReg rt)

/-- `slt`: 1 or 0 by the exact signed comparison. Rests on decision D26. -/
def Obligations.SltWritesSignedLessThan : Prop :=
  ∀ (rd rs rt : Reg) (s : State),
    ∃ t, exec (.slt rd rs rt) s = .next t ∧
      WritesReg s t rd (if (s.readReg rs).toInt < (s.readReg rt).toInt then 1 else 0)

/-- `addi`: the sum with the sign-extended immediate, or the entry for Overflow. Rests on decisions D7, D8. -/
def Obligations.AddiWritesSumOrRaisesOverflow : Prop :=
  ∀ (rt rs : Reg) (imm : BitVec 16) (s : State),
    (Fits ((s.readReg rs).toInt + imm.toInt) →
      ∃ t, exec (.addi rt rs imm) s = .next t ∧ WritesReg s t rt (s.readReg rs + imm.signExtend 32)) ∧
    (¬Fits ((s.readReg rs).toInt + imm.toInt) → VectorReady s 254 →
      ∃ t, exec (.addi rt rs imm) s = .next t ∧ Enters s t 254 ∧ SameHiLo s t)

/-- `slti`: 1 or 0 by the exact signed comparison with the immediate. Rests on decisions D25, D26. -/
def Obligations.SltiWritesSignedLessThan : Prop :=
  ∀ (rt rs : Reg) (imm : BitVec 16) (s : State),
    ∃ t, exec (.slti rt rs imm) s = .next t ∧
      WritesReg s t rt (if (s.readReg rs).toInt < imm.toInt then 1 else 0)

/-- `lui` (R119): its encoding and its result. -/
def Obligations.LuiWritesUpperImmediate : Prop :=
  RowIJ 0x0f (fun w => [(rsOf w).val]) (fun w => .lui (rtOf w) (immOf w)) ∧
  ∀ (rt : Reg) (imm : BitVec 16) (s : State),
    ∃ t, exec (.lui rt imm) s = .next t ∧ WritesReg s t rt (imm ++ 0#16)

/-! Multiplication, division, HI and LO (41_muldiv.md) -/

/-- `mult` (R131): HI and LO hold the exact signed 64-bit product. -/
def Obligations.MultWritesExactProduct : Prop :=
  RowR 0x18 (fun w => [(rdOf w).val, shamtOf w]) (fun w => .mult (rsOf w) (rtOf w)) ∧
  ∀ (rs rt : Reg) (s : State), ∃ t, exec (.mult rs rt) s = .next t ∧
    t.hi.toInt * 2 ^ 32 + t.lo.toNat = (s.readReg rs).toInt * (s.readReg rt).toInt ∧
    t.pc = s.pc + 4 ∧ SameRegs s t ∧ t.epc = s.epc ∧ SameMem s t ∧ t.params = s.params ∧ t.draws = s.draws

/-- `div` by a divisor that is not zero, but for -2^31 by -1: LO the quotient toward zero, HI the remainder with the
dividend's sign. Rests on decision D14. -/
def Obligations.DivWritesQuotientAndRemainder : Prop :=
  ∀ (rs rt : Reg) (s : State), s.readReg rt ≠ 0 →
    ¬((s.readReg rs).toInt = -2 ^ 31 ∧ (s.readReg rt).toInt = -1) →
    ∃ t, exec (.div rs rt) s = .next t ∧
      (s.readReg rs).toInt = t.lo.toInt * (s.readReg rt).toInt + t.hi.toInt ∧
      t.hi.toInt.natAbs < (s.readReg rt).toInt.natAbs ∧
      (t.hi.toInt = 0 ∨ t.hi.toInt.sign = (s.readReg rs).toInt.sign) ∧
      t.pc = s.pc + 4 ∧ SameRegs s t ∧ t.epc = s.epc ∧ SameMem s t ∧ t.params = s.params ∧ t.draws = s.draws

/-- `div` where the spec leaves the result open: by zero it enters DivideByZero; -2^31 by -1 goes on with no exception.
HI and LO are then free, and nothing is said of them. Rests on decisions D15, D16 and log 13. -/
def Obligations.DivOpenResultsRaiseOrGoOn : Prop :=
  ∀ (rs rt : Reg) (s : State),
    (s.readReg rt = 0 → VectorReady s 255 → ∃ t, exec (.div rs rt) s = .next t ∧ Enters s t 255) ∧
    ((s.readReg rs).toInt = -2 ^ 31 → (s.readReg rt).toInt = -1 →
      ∃ t, exec (.div rs rt) s = .next t ∧
        t.pc = s.pc + 4 ∧ SameRegs s t ∧ t.epc = s.epc ∧ SameMem s t ∧ t.params = s.params)

/-- `mfhi` (R133) and `mflo` (R134): their encodings; rd takes HI or LO, which is unchanged. -/
def Obligations.MoveFromHiLoCopies : Prop :=
  RowR 0x10 (fun w => [(rsOf w).val, (rtOf w).val, shamtOf w]) (fun w => .mfhi (rdOf w)) ∧
  RowR 0x12 (fun w => [(rsOf w).val, (rtOf w).val, shamtOf w]) (fun w => .mflo (rdOf w)) ∧
  ∀ (rd : Reg) (s : State),
    (∃ t, exec (.mfhi rd) s = .next t ∧ WritesReg s t rd s.hi) ∧
    (∃ t, exec (.mflo rd) s = .next t ∧ WritesReg s t rd s.lo)

/-! Shifts (42_shift.md) -/

/-- `sll` (R141): its encoding and its result. -/
def Obligations.SllShiftsLeftByShamt : Prop :=
  RowR 0x00 (fun w => [(rsOf w).val]) (fun w => .sll (rdOf w) (rtOf w) (shamtOf w)) ∧
  ∀ (rd rt : Reg) (shamt : Nat) (s : State), shamt < 32 →
    ∃ t, exec (.sll rd rt shamt) s = .next t ∧ WritesReg s t rd (s.readReg rt <<< shamt)

/-- `srl` (R142): its encoding and its result; the shift is logical. -/
def Obligations.SrlShiftsRightLogically : Prop :=
  RowR 0x02 (fun w => [(rsOf w).val]) (fun w => .srl (rdOf w) (rtOf w) (shamtOf w)) ∧
  ∀ (rd rt : Reg) (shamt : Nat) (s : State), shamt < 32 →
    ∃ t, exec (.srl rd rt shamt) s = .next t ∧ WritesReg s t rd (s.readReg rt >>> shamt)

/-- `sllv`: the value in rs shifted left by the low five bits of rt. Rests on decision D18. -/
def Obligations.SllvShiftsRsByLowBitsOfRt : Prop :=
  ∀ (rd rs rt : Reg) (s : State), ∃ t, exec (.sllv rd rs rt) s = .next t ∧
    WritesReg s t rd (s.readReg rs <<< ((s.readReg rt).extractLsb' 0 5).toNat)

/-! Branches and jumps (43_control.md) -/

/-- `beq`: taken when equal. The target's base A + 4 rests on decision D11. -/
def Obligations.BeqBranchesWhenEqual : Prop :=
  ∀ (rs rt : Reg) (imm : BitVec 16) (s : State), ∃ t, exec (.beq rs rt imm) s = .next t ∧
    MovesPc s t (branchPc s (s.readReg rs = s.readReg rt) imm)

/-- `bne`: taken when different. The target's base A + 4 rests on decision D11. -/
def Obligations.BneBranchesWhenDifferent : Prop :=
  ∀ (rs rt : Reg) (imm : BitVec 16) (s : State), ∃ t, exec (.bne rs rt imm) s = .next t ∧
    MovesPc s t (branchPc s (s.readReg rs ≠ s.readReg rt) imm)

/-- `ble`: taken when less or equal, signed. Rests on decisions D11, D26. -/
def Obligations.BleBranchesWhenSignedLessOrEqual : Prop :=
  ∀ (rs rt : Reg) (imm : BitVec 16) (s : State), ∃ t, exec (.ble rs rt imm) s = .next t ∧
    MovesPc s t (branchPc s ((s.readReg rs).toInt ≤ (s.readReg rt).toInt) imm)

/-- `bgt`: taken when greater, signed. Rests on decisions D11, D26. -/
def Obligations.BgtBranchesWhenSignedGreater : Prop :=
  ∀ (rs rt : Reg) (imm : BitVec 16) (s : State), ∃ t, exec (.bgt rs rt imm) s = .next t ∧
    MovesPc s t (branchPc s ((s.readReg rs).toInt > (s.readReg rt).toInt) imm)

/-- `j` (R155): its encoding and its target. -/
def Obligations.JumpGoesToRegionTarget : Prop :=
  RowIJ 0x02 (fun _ => []) (fun w => .j (targetOf w)) ∧
  ∀ (target : BitVec 26) (s : State), ∃ t, exec (.j target) s = .next t ∧ MovesPc s t (jumpPc s target)

/-- `jal`: the link in register 31 and the jump of `j`. The link rests on decision D13. -/
def Obligations.JalLinksAndJumps : Prop :=
  ∀ (target : BitVec 26) (s : State), ∃ t, exec (.jal target) s = .next t ∧
    RegsAfter s t 31 (s.pc + 4) ∧ t.pc = jumpPc s target ∧
    SameHiLo s t ∧ t.epc = s.epc ∧ SameMem s t ∧ t.params = s.params

/-- `jr` (R157): its encoding, and all 32 bits of the register to pc. -/
def Obligations.JrGoesToRegister : Prop :=
  RowR 0x08 (fun w => [(rtOf w).val, (rdOf w).val, shamtOf w]) (fun w => .jr (rsOf w)) ∧
  ∀ (rs : Reg) (s : State), ∃ t, exec (.jr rs) s = .next t ∧ MovesPc s t (s.readReg rs)

/-! Loads and stores (44_loadstore.md) -/

/-- `lb`: the byte at the effective address, sign-extended, under either byte order. Rests on decisions D9, D25. -/
def Obligations.LbLoadsSignExtendedByte : Prop :=
  ∀ (rt rs : Reg) (imm : BitVec 16) (s : State) (b : Byte), Holds s (ea s rs imm) 0 b →
    ∃ t, exec (.lb rt rs imm) s = .next t ∧ WritesReg s t rt (b.signExtend 32)

/-- `lh`: the halfword at the effective address, whatever its alignment, sign-extended. Rests on D4, D9, D25. -/
def Obligations.LhLoadsSignExtendedHalfword : Prop :=
  ∀ (rt rs : Reg) (imm : BitVec 16) (s : State) (b0 b1 : Byte),
    Holds s (ea s rs imm) 0 b0 → Holds s (ea s rs imm) 1 b1 →
    ∃ t, exec (.lh rt rs imm) s = .next t ∧
      WritesReg s t rt ((half s.params.byteOrder b0 b1).signExtend 32)

/-- `lw`: the word at the effective address, whatever its alignment. Rests on decisions D4, D25. -/
def Obligations.LwLoadsWord : Prop :=
  ∀ (rt rs : Reg) (imm : BitVec 16) (s : State) (b0 b1 b2 b3 : Byte),
    Holds s (ea s rs imm) 0 b0 → Holds s (ea s rs imm) 1 b1 →
    Holds s (ea s rs imm) 2 b2 → Holds s (ea s rs imm) 3 b3 →
    ∃ t, exec (.lw rt rs imm) s = .next t ∧ WritesReg s t rt (word s.params.byteOrder b0 b1 b2 b3)

/-- `sb`: the low byte of rt at the effective address and nowhere else. Rests on decisions D10, D25. -/
def Obligations.SbStoresLowByte : Prop :=
  ∀ (rt rs : Reg) (imm : BitVec 16) (s : State), Backed s (ea s rs imm) 1 →
    ∃ t, exec (.sb rt rs imm) s = .next t ∧
      (∀ a, t.mem.read a = if a = (ea s rs imm).toNat then some ((s.readReg rt).setWidth 8) else s.mem.read a) ∧
      t.pc = s.pc + 4 ∧ SameRegs s t ∧ SameHiLo s t ∧ t.epc = s.epc ∧ t.params = s.params

/-- `sw`: the four bytes of rt at the effective address and nowhere else. Rests on decisions D4, D25. -/
def Obligations.SwStoresWord : Prop :=
  ∀ (rt rs : Reg) (imm : BitVec 16) (s : State), Backed s (ea s rs imm) 4 →
    ∃ t, exec (.sw rt rs imm) s = .next t ∧ StoresWord s t (ea s rs imm) (s.readReg rt) ∧
      t.pc = s.pc + 4 ∧ SameRegs s t ∧ SameHiLo s t ∧ t.epc = s.epc ∧ t.params = s.params

/-- Every access that touches an address at or above MEM_SIZE faults there: the loads `lb`, `lh`, `lw`, `pop`, the stores
`sb`, `sw`, `push` (but for the two forms STACK_SELF_OPERAND refuses) and the fetch of a step. A load or fetch of backed
bytes of which one is unwritten faults on it. Rests on decisions D3, D20 (logs 10, 11), on D25 for the addresses and on D4
for a misaligned one; the first such byte in the order of the access is the one reported, which is the model's choice
(log 12). -/
def Obligations.UnbackedOrUnwrittenAccessFaults : Prop :=
  ∀ (s : State) (k : Nat),
    (∀ (i : Instr) (a : Word) (n : Nat), ¬SelfRefused s i →
      (loadsFrom s i = some (a, n) ∨ storesTo s i = some (a, n) → FirstUnbacked s a n k →
        exec i s = .fault (.outsideMemory (byteAddr a k))) ∧
      (loadsFrom s i = some (a, n) → FirstUnwritten s a n k → exec i s = .fault (.unwrittenByte (byteAddr a k)))) ∧
    (FirstUnbacked s s.pc 4 k → step s = .fault (.outsideMemory (byteAddr s.pc k))) ∧
    (FirstUnwritten s s.pc 4 k → step s = .fault (.unwrittenByte (byteAddr s.pc k)))

/-! Stack (45_stack.md) -/

/-- `push` of a register other than 29 (R190): SP goes down by 4 and the word is stored at the new SP; when the store is not
admitted the step does not happen, and that the model then faults rests on decision D3 (logs 11, 23). -/
def Obligations.PushDecrementsAndStores : Prop :=
  RowR 0x05 (fun w => [(rsOf w).val, (rdOf w).val, shamtOf w]) (fun w => .push (rtOf w)) ∧
  ∀ (rt : Reg) (s : State), rt ≠ 29 →
    (Backed s (s.readReg 29 - 4) 4 →
      ∃ t, exec (.push rt) s = .next t ∧ RegsAfter s t 29 (s.readReg 29 - 4) ∧
        StoresWord s t (s.readReg 29 - 4) (s.readReg rt) ∧
        t.pc = s.pc + 4 ∧ SameHiLo s t ∧ t.epc = s.epc ∧ t.params = s.params) ∧
    (¬Backed s (s.readReg 29 - 4) 4 → ∃ f, exec (.push rt) s = .fault f)

/-- `pop` of a register other than 29 (R191): the word at SP to the register, then SP up by 4; memory is unchanged. -/
def Obligations.PopLoadsAndIncrements : Prop :=
  RowR 0x06 (fun w => [(rsOf w).val, (rdOf w).val, shamtOf w]) (fun w => .pop (rtOf w)) ∧
  ∀ (rt : Reg) (s : State) (b0 b1 b2 b3 : Byte), rt ≠ 29 →
    Holds s (s.readReg 29) 0 b0 → Holds s (s.readReg 29) 1 b1 →
    Holds s (s.readReg 29) 2 b2 → Holds s (s.readReg 29) 3 b3 →
    ∃ t, exec (.pop rt) s = .next t ∧
      (∀ r, t.readReg r = if r = 29 then s.readReg 29 + 4
        else if r = rt ∧ ¬(s.params.r0Hardwired = true ∧ r = 0) then word s.params.byteOrder b0 b1 b2 b3
        else s.readReg r) ∧
      t.pc = s.pc + 4 ∧ SameHiLo s t ∧ t.epc = s.epc ∧ SameMem s t ∧ t.params = s.params

/-- `push $29` and `pop $29` follow STACK_SELF_OPERAND: refused under `refuse`, and otherwise one of the results R192 names.
The values other than `refuse` are the model's (log 22). -/
def Obligations.StackSelfOperandFollowsParameter : Prop :=
  ∀ s : State,
    (s.params.stackSelf = .refuse →
      exec (.push 29) s = .refused .stackSelfOperand ∧ exec (.pop 29) s = .refused .stackSelfOperand) ∧
    (∀ p q, s.params.stackSelf = .run p q →
      (Backed s (s.readReg 29 - 4) 4 → ∃ t, exec (.push 29) s = .next t ∧
        RegsAfter s t 29 (s.readReg 29 - 4) ∧
        StoresWord s t (s.readReg 29 - 4) (if p = .oldSp then s.readReg 29 else s.readReg 29 - 4) ∧
        t.pc = s.pc + 4 ∧ SameHiLo s t ∧ t.epc = s.epc ∧ t.params = s.params) ∧
      (∀ b0 b1 b2 b3, Holds s (s.readReg 29) 0 b0 → Holds s (s.readReg 29) 1 b1 →
        Holds s (s.readReg 29) 2 b2 → Holds s (s.readReg 29) 3 b3 →
        ∃ t, exec (.pop 29) s = .next t ∧
          WritesReg s t 29
            (if q = .loaded then word s.params.byteOrder b0 b1 b2 b3 else s.readReg 29 + 4)))

/-- A `pop` right after a `push` gives the pushed value and the old SP back, whatever the alignment of SP. -/
def Obligations.PopUndoesPush : Prop :=
  ∀ (rt rt' : Reg) (s t : State), rt ≠ 29 → rt' ≠ 29 → exec (.push rt) s = .next t →
    ∃ u, exec (.pop rt') t = .next u ∧ u.readReg 29 = s.readReg 29 ∧
      (∀ r, r ≠ 29 →
        u.readReg r = if r = rt' ∧ ¬(s.params.r0Hardwired = true ∧ r = 0) then s.readReg rt else s.readReg r) ∧
      u.pc = s.pc + 8

/-! Exceptions (60_exceptions.md) and `rte` (46_system.md) -/

/-- `rte` (R200): its encoding, and EPC to pc and nothing else. -/
def Obligations.RteCopiesEpcToPc : Prop :=
  RowR 0x13 (fun w => [(rsOf w).val, (rtOf w).val, (rdOf w).val, shamtOf w]) (fun _ => .rte) ∧ ∀ s : State, ∃ t, exec .rte s = .next t ∧ MovesPc s t s.epc

/-- The entry sequence (R214): the faulting instruction's own address to EPC, and to pc the zero-extended byte at 253, 254 or
255 by the exception; nothing else changes. -/
def Obligations.EntrySavesAddressAndVectors : Prop :=
  Exc.nonexistentOpcode.vector.toNat = 253 ∧ Exc.overflow.vector.toNat = 254 ∧ Exc.divideByZero.vector.toNat = 255 ∧
  ∀ (e : Exc) (s : State), VectorReady s e.vector.toNat →
    ∃ t, raise e s = .next t ∧ Enters s t e.vector.toNat ∧ SameHiLo s t ∧ t.pc.toNat < 256

/-- An entry whose vector byte is backed and unwritten has no value for pc and faults; no state follows (log 10). -/
def Obligations.UnwrittenVectorByteFaults : Prop :=
  ∀ (e : Exc) (s : State), 256 ≤ s.params.memSize → s.mem.read e.vector.toNat = none →
    raise e s = .fault (.unwrittenByte e.vector.toNat)

/-- A step on a word that decodes to no instruction enters NonexistentOpcode. Rests on decision D6 for undefined functs. -/
def Obligations.UndefinedWordEntersNonexistentOpcode : Prop :=
  ∀ (s : State) (w : Word) (e : Reject), s.fetch = .ok w → decodeWord w = .error e → VectorReady s 253 →
    ∃ t, step s = .next t ∧ Enters s t 253 ∧ SameHiLo s t

/-- An instruction that raises takes the entry through its own vector byte, and one that does not leaves EPC alone. Rests on
decisions D7, D16, on D15 (-2^31 by -1 raises nothing), and on D8 (log 15) for the destination of an overflowing `add`,
`sub` or `addi`, which the entry leaves unchanged (60_exceptions.md R216). -/
def Obligations.ExactlyOverflowAndZeroDivideRaise : Prop :=
  ∀ (i : Instr) (s t : State), exec i s = .next t →
    (∀ vec, raises s i = some vec → Enters s t vec) ∧ (raises s i = none → t.epc = s.epc)

/-- `rte` goes back to the instruction that raised, which raises again: with registers and memory as they were, the machine
enters the routine again with the same EPC and pc. Which instructions raise rests on decision
D7, and that an overflow leaves a destination that is also a source unwritten on D8 (log 15; 60_exceptions.md R216). -/
def Obligations.RteRepeatsTheException : Prop :=
  ∀ (i : Instr) (s t u : State) (vec : Nat), raises s i = some vec → exec i s = .next t →
    u.regs = t.regs → u.mem = t.mem → u.params = t.params → u.epc = t.epc →
    ∃ v, exec .rte u = .next v ∧ v.pc = s.pc ∧ ∃ x, exec i v = .next x ∧ x.pc = t.pc ∧ x.epc = t.epc

/-! The step -/

/-- When the word at pc decodes to an instruction, the step is that instruction's effect on the same state. -/
def Obligations.StepRunsDecodedInstruction : Prop :=
  ∀ (s : State) (w : Word) (i : Instr), s.fetch = .ok w → decodeWord w = .ok i → step s = exec i s

/-- Any well-formed instruction placed at pc, where four bytes of memory are backed, is fetched, decoded and run.
Rests on decisions D24 and, for a misaligned pc, D4 (log 17). -/
def Obligations.PlacedInstructionIsRun : Prop :=
  ∀ (i : Instr) (s : State), i.wf = true → Backed s s.pc 4 →
    (s.withFetchWord 32 (encode i).toNat).pc = s.pc ∧
    step (s.withFetchWord 32 (encode i).toNat) = exec i (s.withFetchWord 32 (encode i).toNat)

/-- pc is written as R27 and R28 list it: A + 4 but for the branches, jumps, `jr` and `rte`, when nothing is raised. Rests on
decisions D7, D11 (log 18), on D26 (log 20) for the signed comparison of `ble` and `bgt`, and on D15 for `div` of -2^31
by -1. -/
def Obligations.PcFollowsTableUnlessRaising : Prop :=
  ∀ (i : Instr) (s t : State), raises s i = none → exec i s = .next t → t.pc = pcAfter s i

/-- Every step keeps the invariant: admitted parameters, the canonical memory within MEM_SIZE, and the hard-wired 0; and
it leaves the parameters as they were. -/
def Obligations.StepKeepsInvariant : Prop :=
  ∀ s t : State, step s = .next t → t.params = s.params ∧ (s.inv → t.inv)

/-- The state the model starts from meets the invariant; its values are the model's choices (logs 2 to 10). -/
def Obligations.ResetMeetsInvariant : Prop := State.reset.inv

/-- An instruction writes no general register but those R23 lists for it. That `jal` writes register 31 is decision D13. -/
def Obligations.OnlyListedRegistersAreWritten : Prop :=
  ∀ (i : Instr) (s t : State), exec i s = .next t → ∀ r, r ∉ writes i → t.readReg r = s.readReg r

/-- An instruction reads no general register but those R23 lists for it: changing another one changes neither whether it
completes nor what it does to pc, EPC, memory, any other register, that register itself where the instruction writes it and
raises nothing, and HI and LO where they take no free value (log 13). What
raises rests on decision D7, and that `jal` writes register 31 on D13 (log 19). -/
def Obligations.UnlistedRegistersAreNotRead : Prop :=
  ∀ (i : Instr) (s t : State) (r : Reg) (v : Word), r ∉ reads i → exec i s = .next t →
    ∃ t', exec i (s.writeReg r v) = .next t' ∧ t'.pc = t.pc ∧ t'.epc = t.epc ∧ t'.mem = t.mem ∧
      (t.draws = s.draws → t'.hi = t.hi ∧ t'.lo = t.lo) ∧
      (∀ r', r' ≠ r → t'.readReg r' = t.readReg r') ∧
      (raises s i = none → r ∈ writes i → t'.readReg r = t.readReg r)

/-- Only `mult` and `div` change HI or LO. Rests on decision D17 (one pair). -/
def Obligations.OnlyMultAndDivChangeHiLo : Prop :=
  ∀ s t : State, step s = .next t → (t.hi ≠ s.hi ∨ t.lo ≠ s.lo) →
    ∃ w rs rt, s.fetch = .ok w ∧ (decodeWord w = .ok (.mult rs rt) ∨ decodeWord w = .ok (.div rs rt))

/-- EPC changes only by an exception entry, which puts the address of the running instruction there, goes to the vector byte
and leaves every register and memory byte unchanged (60_exceptions.md R214 to R216). Rests on decisions D27, D6 and D7 (what
raises) and D8 (log 15) for the destination of an overflowing `add`, `sub` or `addi`. -/
def Obligations.OnlyEntryChangesEpc : Prop :=
  ∀ s t : State, step s = .next t → t.epc ≠ s.epc →
    t.epc = s.pc ∧ (Enters s t 253 ∨ Enters s t 254 ∨ Enters s t 255)

/-- A byte of memory changes only under `sb`, `sw` or `push`, and lies in the access they make (44_loadstore.md R170,
45_stack.md R190). That `sb` changes no neighbouring byte is decision D10 and the displacement D25 (log 20); that a
misaligned `sw` changes the bytes from its address up is D4 (log 17). -/
def Obligations.OnlyStoresChangeMemory : Prop :=
  ∀ (s t : State) (a : Nat), step s = .next t → t.mem.read a ≠ s.mem.read a →
    ∃ w i addr n, s.fetch = .ok w ∧ decodeWord w = .ok i ∧ storesTo s i = some (addr, n) ∧ ∃ k < n, a = byteAddr addr k

/-- The only refusals are `push $29` and `pop $29` under STACK_SELF_OPERAND = refuse (decision D19, log 5). That a misaligned
access is not refused is decision D4 (log 17). -/
def Obligations.OnlyStackSelfOperandIsRefused : Prop :=
  ∀ (i : Instr) (s : State) (r : Refusal), exec i s = .refused r →
    (i = .push 29 ∨ i = .pop 29) ∧ s.params.stackSelf = .refuse ∧ r = .stackSelfOperand

/-- A step faults only on an address that is not backed, or on one that is unwritten. Rests on decisions D3, D20 (logs 10,
11) and, that a misaligned access is no fault, on D4 (log 17). The ONLY is the model's choice: R24, U1 and D20 make the read
of an unwritten register, HI, LO or EPC a fault too, and logs 7, 8 and 9 depart from that by giving each a value at reset. -/
def Obligations.FaultsComeFromMemoryOnly : Prop :=
  ∀ (s : State) (f : Fault), step s = .fault f →
    ∃ a, a < 2 ^ 32 ∧ ((s.params.memSize ≤ a ∧ f = .outsideMemory a) ∨ (s.mem.read a = none ∧ f = .unwrittenByte a))

/-- Once a run has ended (a `j` to itself at pc) every step leaves the whole state unchanged. Rests on decision D28. -/
def Obligations.EndedStateStaysUnchanged : Prop :=
  ∀ s : State, s.ended → step s = .next s

/-! Memory (20_memory.md) -/

/-- A `MemRead` after a `MemWrite` at the same address and width gives the value, under either byte order. -/
def Obligations.ReadAfterWriteReturnsValue : Prop :=
  ∀ (s t : State) (addr : Word) (n v : Nat), n = 1 ∨ n = 2 ∨ n = 4 → v < 2 ^ (8 * n) →
    s.memWrite addr n v = .ok t → t.memRead addr n = .ok v

/-- After the word 0xAABBCCDD is stored, its bytes and halfwords read as R56 lists for each byte order. -/
def Obligations.MixedWidthReadsFollowByteOrder : Prop :=
  ∀ (s t : State) (a : Word), s.memWrite a 4 0xAABBCCDD = .ok t →
    (s.params.byteOrder = .little →
      t.memRead a 1 = .ok 0xDD ∧ t.memRead (a + 1) 1 = .ok 0xCC ∧ t.memRead (a + 2) 1 = .ok 0xBB ∧
      t.memRead (a + 3) 1 = .ok 0xAA ∧ t.memRead a 2 = .ok 0xCCDD ∧ t.memRead (a + 2) 2 = .ok 0xAABB) ∧
    (s.params.byteOrder = .big →
      t.memRead a 1 = .ok 0xAA ∧ t.memRead (a + 1) 1 = .ok 0xBB ∧ t.memRead (a + 2) 1 = .ok 0xCC ∧
      t.memRead (a + 3) 1 = .ok 0xDD ∧ t.memRead a 2 = .ok 0xAABB ∧ t.memRead (a + 2) 2 = .ok 0xCCDD)

/-- A word stored by `sw` is what a later fetch at that address reads, whatever its alignment. Rests on decisions
D24 (log 24), D4 (log 17, the alignment of both) and D25 (log 20, the displacement). -/
def Obligations.StoredWordIsFetched : Prop :=
  ∀ (rt rs : Reg) (imm : BitVec 16) (s t : State), exec (.sw rt rs imm) s = .next t →
    (t.jumpTo (ea s rs imm)).fetch = .ok (s.readReg rt)

/-! Register 0 and the overflow flag (10_state.md, 40_alu.md) -/

/-- With R0_HARDWIRED, register 0 reads 0 and a write to it changes nothing; otherwise it is ordinary. Rests on D2. -/
def Obligations.RegisterZeroFollowsParameter : Prop :=
  ∀ (s : State) (v : Word),
    (s.params.r0Hardwired = true → s.readReg 0 = 0 ∧ s.writeReg 0 v = s) ∧
    (s.params.r0Hardwired = false → (s.writeReg 0 v).readReg 0 = v)

/-- Flag O of a sum and of a difference is the test on bits 31 that R112 gives as equivalent. -/
def Obligations.OverflowFlagIsSignBitTest : Prop :=
  ∀ a b : Word,
    ((aluFlags .add a b).o = some true ↔ a.msb = b.msb ∧ (a + b).msb ≠ a.msb) ∧
    ((aluFlags .sub a b).o = some true ↔ a.msb ≠ b.msb ∧ (a - b).msb ≠ a.msb)
end

