-- ==== Sys2Proof/Laws/Bytes.lean ====
section
/-! SUPPORT. Byte order: splitting a value into bytes and joining them again (20_memory.md R54, R55). -/

namespace Sys2Proof.Machine

@[simp] theorem splitLittle_length (n v : Nat) : (splitLittle n v).length = n := by
  induction n generalizing v with
  | zero => rfl
  | succ n ih => simp [splitLittle, ih]

@[simp] theorem splitBytes_length (o : ByteOrder) (n v : Nat) : (splitBytes o n v).length = n := by
  cases o <;> simp [splitBytes]

theorem joinLittle_lt (bs : List Byte) : joinLittle bs < 256 ^ bs.length := by
  induction bs with
  | nil => simp [joinLittle]
  | cons b bs ih =>
    have hb := b.isLt
    simp only [joinLittle, List.length_cons, pow_succ]
    omega

/-- A joined value fits the bytes it was joined from. -/
theorem joinBytes_lt (o : ByteOrder) (bs : List Byte) : joinBytes o bs < 256 ^ bs.length := by
  cases o
  · exact joinLittle_lt bs
  · simpa [joinBytes] using joinLittle_lt bs.reverse

theorem joinLittle_splitLittle (n v : Nat) : joinLittle (splitLittle n v) = v % 256 ^ n := by
  induction n generalizing v with
  | zero => simp [splitLittle, joinLittle, Nat.mod_one]
  | succ n ih =>
    rw [splitLittle, joinLittle, ih, BitVec.toNat_ofNat, pow_succ' 256 n, Nat.mod_mul, show (2 : Nat) ^ 8 = 256 by decide]

/-- Joining the split bytes gives the value back, modulo what the bytes can hold. -/
theorem joinBytes_splitBytes (o : ByteOrder) (n v : Nat) : joinBytes o (splitBytes o n v) = v % 256 ^ n := by
  cases o <;> simp [joinBytes, splitBytes, joinLittle_splitLittle]

theorem joinBytes_singleton (o : ByteOrder) (b : Byte) : joinBytes o [b] = b.toNat := by
  cases o <;> simp [joinBytes, joinLittle]

theorem splitBytes_one (o : ByteOrder) (v : Nat) : splitBytes o 1 v = [BitVec.ofNat 8 v] := by
  cases o <;> simp [splitBytes, splitLittle]

end Sys2Proof.Machine
end

