-- ==== Sys2Proof/Laws/Memory.lean ====
section
/-! SUPPORT. The memory: a read after a write, the canonical form kept by every write, and what listed reads and writes
do. -/

namespace Sys2Proof.Machine

@[simp] theorem memory_read_nil (a : Nat) : Memory.read [] a = none := rfl

theorem memory_read_write_same (m : Memory) (a : Nat) (b : Byte) : (m.write a b).read a = some b := by
  induction m with
  | nil => simp [Memory.write, Memory.read]
  | cons c m ih =>
    obtain ⟨k, c⟩ := c
    simp only [Memory.write]
    split
    · simp [Memory.read]
    · split
      · simp [Memory.read]
      · rename_i h
        simp [Memory.read, h, ih]

theorem memory_read_write_other (m : Memory) {a a' : Nat} (b : Byte) (h : a' ≠ a) :
    (m.write a b).read a' = m.read a' := by
  induction m with
  | nil => simp [Memory.write, Memory.read, h, Memory.unlisted]
  | cons c m ih =>
    obtain ⟨k, c⟩ := c
    simp only [Memory.write]
    split
    · simp [Memory.read, h]
    · split
      · rename_i hk
        subst hk
        simp [Memory.read, h]
      · simp [Memory.read, ih]

/-- A read after a write, at any address. -/
theorem memory_read_write (m : Memory) (a a' : Nat) (b : Byte) :
    (m.write a b).read a' = if a' = a then some b else m.read a' := by
  split
  · subst_vars
    exact memory_read_write_same m _ b
  · exact memory_read_write_other m b ‹_›

/-- Every entry after a write is the written one or was there before. -/
theorem memory_mem_write {m : Memory} {a : Nat} {b : Byte} {c : Host.Cell} (h : c ∈ m.write a b) :
    c = (a, b) ∨ c ∈ m := by
  induction m with
  | nil => simpa [Memory.write] using h
  | cons d m ih =>
    obtain ⟨k, d⟩ := d
    simp only [Memory.write] at h
    split at h
    · simpa using h
    · split at h
      · rcases List.mem_cons.mp h with h | h
        · exact .inl h
        · exact .inr (List.mem_cons_of_mem _ h)
      · rcases List.mem_cons.mp h with h | h
        · exact .inr (h ▸ List.mem_cons_self)
        · exact (ih h).imp_right (List.mem_cons_of_mem _)

/-- A write keeps the canonical form. -/
theorem memory_wf_write {m : Memory} (h : m.wf) (a : Nat) (b : Byte) : (m.write a b).wf := by
  induction m with
  | nil => simp [Memory.write]
  | cons c m ih =>
    obtain ⟨k, c⟩ := c
    obtain ⟨hk, hm⟩ := List.pairwise_cons.mp h
    simp only [Memory.write]
    split
    · refine List.pairwise_cons.mpr ⟨fun x hx => ?_, h⟩
      rcases List.mem_cons.mp hx with rfl | hx
      · assumption
      · exact Nat.lt_trans ‹a < k› (hk x hx)
    · split
      · subst_vars
        exact List.pairwise_cons.mpr ⟨hk, hm⟩
      · refine List.pairwise_cons.mpr ⟨fun x hx => ?_, ih hm⟩
        rcases memory_mem_write hx with rfl | hx
        · simp only
          omega
        · exact hk x hx

/-- Listed writes keep the canonical form. -/
theorem memory_wf_writeAll {m : Memory} (h : m.wf) (cs : List Host.Cell) : (m.writeAll cs).wf := by
  induction cs generalizing m with
  | nil => exact h
  | cons c cs ih => exact ih (memory_wf_write h _ _)

/-- Every entry after listed writes is one of them or was there before. -/
theorem memory_mem_writeAll {m : Memory} {cs : List Host.Cell} {c : Host.Cell} (h : c ∈ m.writeAll cs) :
    c ∈ cs ∨ c ∈ m := by
  induction cs generalizing m with
  | nil => exact .inr h
  | cons d cs ih =>
    rcases ih h with h | h
    · exact .inl (List.mem_cons_of_mem _ h)
    · rcases memory_mem_write h with rfl | h
      · exact .inl List.mem_cons_self
      · exact .inr h

/-- An address that no listed write touches reads as before. -/
theorem memory_read_writeAll_other {m : Memory} {cs : List Host.Cell} {a : Nat} (h : ∀ c ∈ cs, c.1 ≠ a) :
    (m.writeAll cs).read a = m.read a := by
  induction cs generalizing m with
  | nil => rfl
  | cons c cs ih =>
    rw [Memory.writeAll, ih fun d hd => h d (List.mem_cons_of_mem _ hd),
      memory_read_write_other m _ (Ne.symm (h c List.mem_cons_self))]

/-- Reading back distinct addresses after writing them gives the written bytes. -/
theorem memory_readAll_writeAll {as : List Nat} {bs : List Byte} (m : Memory) (hd : as.Nodup)
    (hl : as.length = bs.length) : (m.writeAll (as.zip bs)).readAll as = .ok bs := by
  induction as generalizing m bs with
  | nil => cases bs <;> simp_all [Memory.readAll]
  | cons a as ih =>
    cases bs with
    | nil => simp at hl
    | cons b bs =>
      obtain ⟨ha, hd⟩ := List.nodup_cons.mp hd
      have hr : ((m.write a b).writeAll (as.zip bs)).read a = some b := by
        rw [memory_read_writeAll_other, memory_read_write_same]
        intro c hc e
        exact ha (e ▸ (List.of_mem_zip hc).1)
      simp [Memory.readAll, Memory.writeAll, hr, ih (m.write a b) hd (by simpa using hl)]

/-- Listed reads answer exactly when every byte is written, and with those bytes. -/
theorem memory_readAll_ok_iff {m : Memory} {as : List Nat} {bs : List Byte} :
    m.readAll as = .ok bs ↔ as.map m.read = bs.map some := by
  induction as generalizing bs with
  | nil => cases bs <;> simp [Memory.readAll]
  | cons a as ih =>
    simp only [Memory.readAll]
    cases ha : m.read a with
    | none => cases bs <;> simp [ha]
    | some b =>
      cases hr : m.readAll as with
      | error f =>
        cases bs with
        | nil => simp
        | cons c cs =>
          have := (ih (bs := cs)).not.mp (by simp [hr])
          simp [ha, this]
      | ok cs =>
        cases bs with
        | nil => simp
        | cons d ds =>
          have h1 := ih (bs := ds)
          simp only [hr, Except.ok.injEq] at h1
          simp [ha, h1]

/-- A listed read that does not answer names the first address, of those listed, that holds no value. -/
theorem memory_readAll_error {m : Memory} {as : List Nat} {f : Fault} (h : m.readAll as = .error f) :
    ∃ a ∈ as, m.read a = none ∧ f = .unwrittenByte a := by
  induction as with
  | nil => simp [Memory.readAll] at h
  | cons a as ih =>
    simp only [Memory.readAll] at h
    split at h
    · exact ⟨a, by simp, ‹_›, (Except.error.inj h).symm⟩
    · split at h
      · obtain ⟨a', ha', hr, hf⟩ := ih (by simp_all)
        exact ⟨a', List.mem_cons_of_mem _ ha', hr, hf⟩
      · simp at h

/-- Reading a list of addresses faults on the first that is unwritten. -/
theorem Memory.readAll_first {m : Memory} {as : List Nat} {k : Nat} (hk : k < as.length)
    (hj : ∀ j (h : j < k), ∃ b, m.read as[j] = some b) (h : m.read as[k] = none) :
    m.readAll as = .error (.unwrittenByte as[k]) := by
  induction as generalizing k with
  | nil => cases hk
  | cons a as ih =>
    cases k with
    | zero =>
      rw [List.getElem_cons_zero] at h ⊢
      simp [Memory.readAll, h]
    | succ k =>
      rw [List.getElem_cons_succ] at h ⊢
      obtain ⟨b, hb⟩ := hj 0 (Nat.succ_pos k)
      rw [List.getElem_cons_zero] at hb
      have := ih (Nat.lt_of_succ_lt_succ hk) (fun j hjk => hj (j + 1) (Nat.succ_lt_succ hjk)) h
      simp [Memory.readAll, hb, this]

end Sys2Proof.Machine
end

