-- ==== Sys2Proof/Laws/State.lean ====
section
/-! SUPPORT. The small lemmas of every state update: one per field, and what a register reads after a write. -/

namespace Sys2Proof.Machine

section WriteReg
variable (s : State) (r : Reg) (v : Word)

@[simp] theorem writeReg_params : (s.writeReg r v).params = s.params := rfl
@[simp] theorem writeReg_pc : (s.writeReg r v).pc = s.pc := rfl
@[simp] theorem writeReg_hi : (s.writeReg r v).hi = s.hi := rfl
@[simp] theorem writeReg_lo : (s.writeReg r v).lo = s.lo := rfl
@[simp] theorem writeReg_epc : (s.writeReg r v).epc = s.epc := rfl
@[simp] theorem writeReg_mem : (s.writeReg r v).mem = s.mem := rfl
@[simp] theorem writeReg_draws : (s.writeReg r v).draws = s.draws := rfl
theorem writeReg_regs : (s.writeReg r v).regs =
    if isZeroReg s.params r then s.regs else s.regs.set r.val v r.isLt := rfl

/-- A read after a write: the written value at the written register, unless it is a hard-wired register 0. -/
theorem readReg_writeReg (r' : Reg) : (s.writeReg r v).readReg r' =
    if r' = r ∧ isZeroReg s.params r = false then v else s.readReg r' := by
  simp only [State.readReg, State.writeReg]
  by_cases h : r' = r
  · subst h
    by_cases hz : isZeroReg s.params r' <;> simp [hz]
  · have hv : r.val ≠ r'.val := fun e => h (Fin.ext e.symm)
    by_cases hz : isZeroReg s.params r <;> simp [hz, h, hv]

end WriteReg

section JumpTo
variable (s : State) (p : Word)

@[simp] theorem jumpTo_params : (s.jumpTo p).params = s.params := rfl
@[simp] theorem jumpTo_regs : (s.jumpTo p).regs = s.regs := rfl
@[simp] theorem jumpTo_pc : (s.jumpTo p).pc = p := rfl
@[simp] theorem jumpTo_hi : (s.jumpTo p).hi = s.hi := rfl
@[simp] theorem jumpTo_lo : (s.jumpTo p).lo = s.lo := rfl
@[simp] theorem jumpTo_epc : (s.jumpTo p).epc = s.epc := rfl
@[simp] theorem jumpTo_mem : (s.jumpTo p).mem = s.mem := rfl
@[simp] theorem jumpTo_draws : (s.jumpTo p).draws = s.draws := rfl
@[simp] theorem jumpTo_readReg (r : Reg) : (s.jumpTo p).readReg r = s.readReg r := rfl

end JumpTo

section Advance
variable (s : State)

@[simp] theorem advance_params : s.advance.params = s.params := rfl
@[simp] theorem advance_regs : s.advance.regs = s.regs := rfl
@[simp] theorem advance_pc : s.advance.pc = s.pc + 4 := rfl
@[simp] theorem advance_hi : s.advance.hi = s.hi := rfl
@[simp] theorem advance_lo : s.advance.lo = s.lo := rfl
@[simp] theorem advance_epc : s.advance.epc = s.epc := rfl
@[simp] theorem advance_mem : s.advance.mem = s.mem := rfl
@[simp] theorem advance_draws : s.advance.draws = s.draws := rfl
@[simp] theorem advance_readReg (r : Reg) : s.advance.readReg r = s.readReg r := rfl

end Advance

section HiLo
variable (s : State) (h l : Word)

@[simp] theorem setHiLo_params : (s.setHiLo h l).params = s.params := rfl
@[simp] theorem setHiLo_regs : (s.setHiLo h l).regs = s.regs := rfl
@[simp] theorem setHiLo_pc : (s.setHiLo h l).pc = s.pc := rfl
@[simp] theorem setHiLo_hi : (s.setHiLo h l).hi = h := rfl
@[simp] theorem setHiLo_lo : (s.setHiLo h l).lo = l := rfl
@[simp] theorem setHiLo_epc : (s.setHiLo h l).epc = s.epc := rfl
@[simp] theorem setHiLo_mem : (s.setHiLo h l).mem = s.mem := rfl
@[simp] theorem setHiLo_draws : (s.setHiLo h l).draws = s.draws := rfl
@[simp] theorem setHiLo_readReg (r : Reg) : (s.setHiLo h l).readReg r = s.readReg r := rfl

@[simp] theorem drawHiLo_params : s.drawHiLo.params = s.params := rfl
@[simp] theorem drawHiLo_regs : s.drawHiLo.regs = s.regs := rfl
@[simp] theorem drawHiLo_pc : s.drawHiLo.pc = s.pc := rfl
@[simp] theorem drawHiLo_hi : s.drawHiLo.hi = Config.freeHi s.draws := rfl
@[simp] theorem drawHiLo_lo : s.drawHiLo.lo = Config.freeLo s.draws := rfl
@[simp] theorem drawHiLo_epc : s.drawHiLo.epc = s.epc := rfl
@[simp] theorem drawHiLo_mem : s.drawHiLo.mem = s.mem := rfl
@[simp] theorem drawHiLo_draws : s.drawHiLo.draws = s.draws + 1 := rfl
@[simp] theorem drawHiLo_readReg (r : Reg) : s.drawHiLo.readReg r = s.readReg r := rfl

end HiLo

section Return
variable (s : State)

@[simp] theorem returnFromException_pc : (returnFromException s).pc = s.epc := rfl
@[simp] theorem returnFromException_params : (returnFromException s).params = s.params := rfl
@[simp] theorem returnFromException_regs : (returnFromException s).regs = s.regs := rfl
@[simp] theorem returnFromException_hi : (returnFromException s).hi = s.hi := rfl
@[simp] theorem returnFromException_lo : (returnFromException s).lo = s.lo := rfl
@[simp] theorem returnFromException_epc : (returnFromException s).epc = s.epc := rfl
@[simp] theorem returnFromException_mem : (returnFromException s).mem = s.mem := rfl
@[simp] theorem returnFromException_draws : (returnFromException s).draws = s.draws := rfl
@[simp] theorem returnFromException_readReg (r : Reg) : (returnFromException s).readReg r = s.readReg r := rfl

end Return

/-- A hard-wired register 0 reads 0 (10_state.md R22). -/
theorem readReg_zero_of_hardwired {s : State} (h : s.params.r0Hardwired = true) : s.readReg 0 = 0 := by
  simp [State.readReg, isZeroReg, h]

/-- What a register reads depends on the parameters and the stored registers only. -/
theorem readReg_congr {s t : State} (hp : t.params = s.params) (hr : t.regs = s.regs) (r : Reg) :
    t.readReg r = s.readReg r := by
  simp [State.readReg, hp, hr]

end Sys2Proof.Machine
end

