-- ==== Sys2Proof/Laws/Ops.lean ====
section
/-! SUPPORT. For each shared operation, once, everything it can do. -/

namespace Sys2Proof.Machine

@[simp] theorem accessAddrs_length (addr : Word) (n : Nat) : (accessAddrs addr n).length = n := by
  simp [accessAddrs]

theorem accessAddrs_one (addr : Word) : accessAddrs addr 1 = [addr.toNat] := by
  simp [accessAddrs, addr.isLt]

/-- The addresses of an access are those of R54, `(addr + k) mod 2^32` for `k < n`. -/
theorem mem_accessAddrs {addr : Word} {n a : Nat} :
    a ∈ accessAddrs addr n ↔ ∃ k < n, a = (addr.toNat + k) % 2 ^ 32 := by
  simp only [accessAddrs, List.mem_map, List.mem_range, BitVec.toNat_add, BitVec.toNat_ofNat]
  constructor
  · rintro ⟨k, hk, rfl⟩
    exact ⟨k, hk, by omega⟩
  · rintro ⟨k, hk, rfl⟩
    exact ⟨k, hk, by omega⟩

/-- The addresses of one access are distinct. -/
theorem accessAddrs_nodup (addr : Word) {n : Nat} (hn : n ≤ 2 ^ 32) : (accessAddrs addr n).Nodup := by
  refine List.Nodup.map_on ?_ List.nodup_range
  intro x hx y hy h
  simp only [List.mem_range, BitVec.toNat_add, BitVec.toNat_ofNat] at hx hy h
  omega

/-- Every byte is backed exactly when no address is reported. -/
theorem unbacked_eq_none {s : State} {as : List Nat} :
    s.unbacked as = none ↔ ∀ a ∈ as, a < s.params.memSize := by
  simp [State.unbacked]

/-- A reported address is one of those asked about and is not backed. -/
theorem unbacked_eq_some {s : State} {as : List Nat} {a : Nat} (h : s.unbacked as = some a) :
    a ∈ as ∧ s.params.memSize ≤ a :=
  ⟨List.mem_of_find?_eq_some h, by simpa using List.find?_some h⟩

theorem accessAddrs_getElem (addr : Word) (n k : Nat) (h : k < (accessAddrs addr n).length) :
    (accessAddrs addr n)[k] = (addr.toNat + k) % 2 ^ 32 := by
  simp [accessAddrs]

/-- The first address that is not backed is the one reported. -/
theorem unbacked_first {s : State} {addr : Word} {n k : Nat} (hk : k < n)
    (hj : ∀ j < k, (addr.toNat + j) % 2 ^ 32 < s.params.memSize)
    (h : s.params.memSize ≤ (addr.toNat + k) % 2 ^ 32) :
    s.unbacked (accessAddrs addr n) = some ((addr.toNat + k) % 2 ^ 32) := by
  refine List.find?_eq_some_iff_getElem.mpr ⟨by simpa using h, k, by simpa using hk, accessAddrs_getElem .., ?_⟩
  intro j hjk
  rw [accessAddrs_getElem]
  simpa using hj j hjk

/-- An access whose k-th byte is the first that is not backed faults on it, read or write (R52; log 12). -/
theorem access_outsideMemory {s : State} {addr : Word} {n k : Nat} (hk : k < n)
    (hj : ∀ j < k, (addr.toNat + j) % 2 ^ 32 < s.params.memSize)
    (h : s.params.memSize ≤ (addr.toNat + k) % 2 ^ 32) (v : Nat) :
    s.memRead addr n = .error (.outsideMemory ((addr.toNat + k) % 2 ^ 32)) ∧
    s.memWrite addr n v = .error (.outsideMemory ((addr.toNat + k) % 2 ^ 32)) := by
  simp [State.memRead, State.memWrite, unbacked_first hk hj h]

/-- A read of backed bytes whose k-th is the first unwritten one faults on it (R24; log 12). -/
theorem memRead_unwrittenByte {s : State} {addr : Word} {n k : Nat}
    (hb : ∀ a ∈ accessAddrs addr n, a < s.params.memSize) (hk : k < n)
    (hj : ∀ j < k, ∃ b, s.mem.read ((addr.toNat + j) % 2 ^ 32) = some b)
    (h : s.mem.read ((addr.toNat + k) % 2 ^ 32) = none) :
    s.memRead addr n = .error (.unwrittenByte ((addr.toNat + k) % 2 ^ 32)) := by
  have hl : k < (accessAddrs addr n).length := by simpa using hk
  have := Memory.readAll_first (m := s.mem) (as := accessAddrs addr n) (k := k) hl
    (fun j hjk => by rw [accessAddrs_getElem]; exact hj j hjk) (by rw [accessAddrs_getElem]; exact h)
  simp [State.memRead, unbacked_eq_none.mpr hb, this, accessAddrs_getElem]

/-- `MemRead` answers exactly when every byte is backed and written, and then with their joined value (R54). -/
theorem memRead_ok_iff {s : State} {addr : Word} {n v : Nat} : s.memRead addr n = .ok v ↔
    (∀ a ∈ accessAddrs addr n, a < s.params.memSize) ∧
    ∃ bs, (accessAddrs addr n).map s.mem.read = bs.map some ∧ v = joinBytes s.params.byteOrder bs := by
  simp only [State.memRead]
  cases hu : s.unbacked (accessAddrs addr n) with
  | some a =>
    have := unbacked_eq_some hu
    simp only [reduceCtorEq, false_iff, not_and]
    intro hall
    exact absurd (hall a this.1) (by omega)
  | none =>
    have hall := unbacked_eq_none.mp hu
    cases hr : s.mem.readAll (accessAddrs addr n) with
    | error f =>
      simp only [reduceCtorEq, false_iff, not_and]
      rintro - ⟨bs, hbs, -⟩
      simp [memory_readAll_ok_iff.mpr hbs] at hr
    | ok bs =>
      have hbs := memory_readAll_ok_iff.mp hr
      constructor
      · intro h
        exact ⟨hall, bs, hbs, (Except.ok.inj h).symm⟩
      · rintro ⟨-, cs, hcs, rfl⟩
        rw [hbs] at hcs
        have : bs = cs := List.map_injective_iff.mpr (Option.some_injective _) hcs
        rw [this]

/-- `MemRead` that does not answer names an address of the access: one not backed (R52), or one unwritten (R24). -/
theorem memRead_error {s : State} {addr : Word} {n : Nat} {f : Fault} (h : s.memRead addr n = .error f) :
    ∃ a ∈ accessAddrs addr n, (s.params.memSize ≤ a ∧ f = .outsideMemory a) ∨
      (s.mem.read a = none ∧ f = .unwrittenByte a) := by
  simp only [State.memRead] at h
  split at h
  · rename_i a hu
    have := unbacked_eq_some hu
    exact ⟨a, this.1, .inl ⟨this.2, (Except.error.inj h).symm⟩⟩
  · split at h
    · rename_i f' hr
      obtain ⟨a, ha, hn, hf⟩ := memory_readAll_error hr
      exact ⟨a, ha, .inr ⟨hn, by rw [← Except.error.inj h, hf]⟩⟩
    · simp at h

/-- What `MemRead` answers depends on the parameters and the memory only. -/
theorem memRead_congr {s t : State} (hp : t.params = s.params) (hm : t.mem = s.mem) (addr : Word) (n : Nat) :
    t.memRead addr n = s.memRead addr n := by
  simp only [State.memRead, State.unbacked, hp, hm]

/-- A one-byte read gives the byte. -/
theorem memRead_one_ok_iff {s : State} {addr : Word} {v : Nat} : s.memRead addr 1 = .ok v ↔
    addr.toNat < s.params.memSize ∧ ∃ b, s.mem.read addr.toNat = some b ∧ v = b.toNat := by
  rw [memRead_ok_iff]
  simp only [accessAddrs_one, List.mem_singleton, forall_eq, List.map_cons, List.map_nil]
  constructor
  · rintro ⟨h, bs, hbs, rfl⟩
    obtain ⟨b, rfl⟩ := List.length_eq_one_iff.mp (by simpa using (congrArg List.length hbs).symm)
    exact ⟨h, b, by simpa using hbs, joinBytes_singleton _ b⟩
  · rintro ⟨h, b, hb, rfl⟩
    exact ⟨h, [b], by simp [hb], (joinBytes_singleton _ b).symm⟩

/-- A value read fits its width. -/
theorem memRead_lt {s : State} {addr : Word} {n v : Nat} (h : s.memRead addr n = .ok v) : v < 256 ^ n := by
  obtain ⟨-, bs, hbs, rfl⟩ := memRead_ok_iff.mp h
  have hl : bs.length = n := by
    have := congrArg List.length hbs
    simpa using this.symm
  exact hl ▸ joinBytes_lt _ bs

/-- `MemWrite` answers exactly when every byte is backed, and then only memory changes (R55). -/
theorem memWrite_ok_iff {s t : State} {addr : Word} {n v : Nat} : s.memWrite addr n v = .ok t ↔
    (∀ a ∈ accessAddrs addr n, a < s.params.memSize) ∧
    t = { s with mem := s.mem.writeAll ((accessAddrs addr n).zip (splitBytes s.params.byteOrder n v)) } := by
  simp only [State.memWrite]
  cases hu : s.unbacked (accessAddrs addr n) with
  | some a =>
    have := unbacked_eq_some hu
    simp only [reduceCtorEq, false_iff, not_and]
    intro hall
    exact absurd (hall a this.1) (by omega)
  | none =>
    have hall := unbacked_eq_none.mp hu
    simp only [Except.ok.injEq]
    exact ⟨fun h => ⟨hall, h.symm⟩, fun h => h.2.symm⟩

/-- `MemWrite` that does not answer names an address of the access that is not backed (R52). -/
theorem memWrite_error {s : State} {addr : Word} {n v : Nat} {f : Fault} (h : s.memWrite addr n v = .error f) :
    ∃ a ∈ accessAddrs addr n, s.params.memSize ≤ a ∧ f = .outsideMemory a := by
  simp only [State.memWrite] at h
  split at h
  · rename_i a hu
    have := unbacked_eq_some hu
    exact ⟨a, this.1, this.2, (Except.error.inj h).symm⟩
  · simp at h

/-- A store changes memory alone, and of memory no byte outside the access. -/
theorem memWrite_frame {s t : State} {addr : Word} {n v : Nat} (h : s.memWrite addr n v = .ok t) :
    t.params = s.params ∧ t.regs = s.regs ∧ t.pc = s.pc ∧ t.hi = s.hi ∧ t.lo = s.lo ∧ t.epc = s.epc ∧
    t.draws = s.draws ∧ ∀ a, a ∉ accessAddrs addr n → t.mem.read a = s.mem.read a := by
  obtain ⟨-, rfl⟩ := memWrite_ok_iff.mp h
  refine ⟨rfl, rfl, rfl, rfl, rfl, rfl, rfl, fun a ha => ?_⟩
  refine memory_read_writeAll_other fun c hc e => ha ?_
  exact e ▸ (List.of_mem_zip hc).1

/-- A store keeps the memory's canonical form and lists no byte that is not backed. -/
theorem memWrite_wf {s t : State} {addr : Word} {n v : Nat} (h : s.memWrite addr n v = .ok t)
    (hw : s.mem.wf) (hb : ∀ c ∈ s.mem, c.1 < s.params.memSize) :
    t.mem.wf ∧ ∀ c ∈ t.mem, c.1 < t.params.memSize := by
  obtain ⟨hall, rfl⟩ := memWrite_ok_iff.mp h
  refine ⟨memory_wf_writeAll hw _, fun c hc => ?_⟩
  rcases memory_mem_writeAll hc with hc | hc
  · exact hall _ (List.of_mem_zip hc).1
  · exact hb c hc

/-- What taking an exception can do: read the vector byte and enter, or fault where it cannot be read (R214, R217). -/
theorem raise_cases (e : Exc) (s : State) :
    (∃ b, e.vector.toNat < s.params.memSize ∧ s.mem.read e.vector.toNat = some b ∧
      raise e s = .next { s with epc := s.pc, pc := zext b }) ∨
    (∃ f, s.memRead e.vector 1 = .error f ∧ raise e s = .fault f) := by
  simp only [raise]
  cases h : s.memRead e.vector 1 with
  | error f => exact .inr ⟨f, rfl, rfl⟩
  | ok v =>
    obtain ⟨hlt, b, hb, rfl⟩ := memRead_one_ok_iff.mp h
    exact .inl ⟨b, hlt, hb, by simp⟩

/-- Entry is taken where the vector byte is backed and written. -/
theorem raise_of_read {e : Exc} {s : State} {b : Byte} (hm : e.vector.toNat < s.params.memSize)
    (hb : s.mem.read e.vector.toNat = some b) : raise e s = .next { s with epc := s.pc, pc := zext b } := by
  have : s.memRead e.vector 1 = .ok b.toNat := memRead_one_ok_iff.mpr ⟨hm, b, hb, rfl⟩
  simp [raise, this]

/-- If taking an exception answers next, this is that state. -/
theorem raise_next {e : Exc} {s t : State} (h : raise e s = .next t) :
    ∃ b, e.vector.toNat < s.params.memSize ∧ s.mem.read e.vector.toNat = some b ∧
      t = { s with epc := s.pc, pc := zext b } := by
  rcases raise_cases e s with ⟨b, hm, hb, hr⟩ | ⟨f, -, hr⟩
  · rw [hr] at h
    cases h
    exact ⟨b, hm, hb, rfl⟩
  · rw [hr] at h
    cases h

/-- An entry that faults reports its vector byte. -/
theorem raise_fault {e : Exc} {s : State} {f : Fault} (h : raise e s = .fault f) :
    s.memRead e.vector 1 = .error f := by
  rcases raise_cases e s with ⟨b, -, -, hr⟩ | ⟨f', hf, hr⟩ <;> rw [hr] at h <;> cases h
  exact hf

theorem raise_not_refused (e : Exc) (s : State) (r : Refusal) : raise e s ≠ .refused r := by
  rcases raise_cases e s with ⟨b, -, -, hr⟩ | ⟨f, -, hr⟩ <;> simp [hr]

/-- An instruction that writes one register and goes on. -/
@[simp] theorem finish_eq (s : State) (dest : Reg) (v : Word) :
    s.finish dest v = .next (s.writeReg dest v).advance := rfl

/-- `add`, `sub`, `addi`: the result, or the entry for `Overflow`. -/
theorem finishOrOverflow_cases (s : State) (o : Bool) (dest : Reg) (v : Word) :
    (o = false ∧ s.finishOrOverflow o dest v = .next (s.writeReg dest v).advance) ∨
    (o = true ∧ s.finishOrOverflow o dest v = raise .overflow s) := by
  cases o <;> simp [State.finishOrOverflow]

/-- A load: the value read and written, or the fault of the read. -/
theorem load_cases (s : State) (ea : Word) (n : Nat) (widen : Nat → Word) (dest : Reg) :
    (∃ v, s.memRead ea n = .ok v ∧ s.load ea n widen dest = .next (s.writeReg dest (widen v)).advance) ∨
    (∃ f, s.memRead ea n = .error f ∧ s.load ea n widen dest = .fault f) := by
  simp only [State.load]
  cases h : s.memRead ea n with
  | error f => exact .inr ⟨f, rfl, rfl⟩
  | ok v => exact .inl ⟨v, rfl, rfl⟩

/-- A store: the bytes written, or the fault of the write. -/
theorem store_cases (s : State) (ea : Word) (n v : Nat) :
    (∃ t, s.memWrite ea n v = .ok t ∧ s.store ea n v = .next t.advance) ∨
    (∃ f, s.memWrite ea n v = .error f ∧ s.store ea n v = .fault f) := by
  simp only [State.store]
  cases h : s.memWrite ea n v with
  | error f => exact .inr ⟨f, rfl, rfl⟩
  | ok t => exact .inl ⟨t, rfl, rfl⟩

/-- A push: the store and the decrement together, or the fault of the store and neither. -/
theorem pushWord_cases (s : State) (v : Word) :
    (∃ t, s.memWrite s.pushAddr 4 v.toNat = .ok t ∧
      s.pushWord v = .next (t.writeReg spReg s.pushAddr).advance) ∨
    (∃ f, s.memWrite s.pushAddr 4 v.toNat = .error f ∧ s.pushWord v = .fault f) := by
  simp only [State.pushWord]
  cases h : s.memWrite s.pushAddr 4 v.toNat with
  | error f => exact .inr ⟨f, rfl, rfl⟩
  | ok t => exact .inl ⟨t, rfl, rfl⟩

/-- A pop: the word read, written, and the increment, or the fault of the read. -/
theorem popWord_cases (s : State) (rt : Reg) :
    (∃ v, s.memRead s.popAddr 4 = .ok v ∧
      s.popWord rt = .next ((s.writeReg rt (widenWord v)).writeReg spReg (s.popAddr + 4)).advance) ∨
    (∃ f, s.memRead s.popAddr 4 = .error f ∧ s.popWord rt = .fault f) := by
  simp only [State.popWord]
  cases h : s.memRead s.popAddr 4 with
  | error f => exact .inr ⟨f, rfl, rfl⟩
  | ok v => exact .inl ⟨v, rfl, rfl⟩

/-- A branch changes pc alone. -/
theorem branch_eq (s : State) (taken : Bool) (imm : BitVec 16) :
    s.branch taken imm = .next (s.jumpTo (if taken then s.branchTarget imm else s.pc + 4)) := by
  cases taken <;> rfl

/-- The exact sum narrowed to 32 bits is the wrapping sum. -/
theorem sumWord_eq (a b : Word) : sumWord a b = a + b := by
  simp [sumWord, BitVec.ofInt_add]

/-- The exact difference narrowed to 32 bits is the wrapping difference. -/
theorem diffWord_eq (a b : Word) : diffWord a b = a - b := by
  simp [diffWord, Int.sub_eq_add_neg, BitVec.ofInt_add, BitVec.ofInt_neg, BitVec.sub_eq_add_neg]

end Sys2Proof.Machine
end

