-- ==== Sys2Proof/Laws/Alu.lean ====
section
/-! SUPPORT. The ALU and shift-register tables (10_state.md R35, R36) beside the operations the meanings use. -/

namespace Sys2Proof.Machine

/-- The ALU's S for every function that has one (R35). -/
theorem aluS_table (a b : Word) : aluS .load a b = some a ∧ aluS .add a b = some (a + b) ∧
    aluS .sub a b = some (a - b) ∧ aluS .and a b = some (a &&& b) ∧ aluS .inc a b = some (a + 1) ∧
    aluS .not a b = some (~~~a) ∧ aluS .xor a b = some (a ^^^ b) ∧ aluS .comp a b = none := by
  simp [aluS, sumWord_eq, diffWord_eq]

/-- `sll`, `sllv` and `srl` load the shift register and shift it (R36). -/
theorem shiftRegister_load_shift (held v : Word) (n : Nat) :
    shiftRegister .left (shiftRegister .load held v n) v n = shiftLeft v n ∧
    shiftRegister .rightLogical (shiftRegister .load held v n) v n = shiftRight v n := ⟨rfl, rfl⟩

theorem shiftLeft_eq (v : Word) (n : Nat) : shiftLeft v n = v <<< n := by
  apply BitVec.eq_of_toNat_eq
  simp [shiftLeft, Nat.shiftLeft_eq]

theorem shiftRight_eq (v : Word) (n : Nat) : shiftRight v n = v >>> n := by
  apply BitVec.eq_of_toNat_eq
  have := v.isLt
  have := Nat.div_le_self v.toNat (2 ^ n)
  simp [shiftRight, Nat.shiftRight_eq_div_pow]
  omega

/-- The sign-extended immediate has the immediate's signed value (30_encoding.md R84). -/
theorem immWord_toInt (imm : BitVec 16) : (immWord imm).toInt = imm.toInt := by
  simp [immWord, sext, BitVec.toInt_signExtend_of_le]

end Sys2Proof.Machine
end

