-- ==== Sys2Proof/Laws/Datapath.lean ====
section
/-! SUPPORT. The control-signal tables (10_state.md R41, R42) beside the operations the meanings use. -/

namespace Sys2Proof.Machine

/-- The operand forms of the meanings are what the datapath's multiplexers give: the branch target by ALUSrcA = 0 and
ALUSrcB = 11 once PC holds A + 4, the effective address by ALUSrcA = 1 and ALUSrcB = 10 (10_state.md R41, R42). -/
theorem operands_from_datapath (s : State) (rs : Reg) (b : Word) (imm : BitVec 16) :
    aluS .add (aluInputA false s.nextPc b) (aluInputB 3 b imm) = some (s.branchTarget imm) ∧
    aluS .add (aluInputA true s.nextPc (s.readReg rs)) (aluInputB 2 b imm) = some (s.effAddr rs imm) := by
  simp [aluS, sumWord_eq, aluInputA, aluInputB, State.branchTarget, State.effAddr, State.nextPc]

/-- The jump target is what PCSource = 10 sends to PC (R42; 43_control.md R155). -/
theorem jumpTarget_from_datapath (s : State) (r o : Word) (target : BitVec 26) :
    pcInput 2 r o s.nextPc target = some (s.jumpTarget target) := by
  rw [pcInput, if_neg (by decide), if_neg (by decide), if_pos (by decide), Option.some.injEq, State.jumpTarget]
  have h := s.nextPc.isLt
  have ht := target.isLt
  generalize s.nextPc = p at h
  apply BitVec.eq_of_toNat_eq
  rw [BitVec.toNat_append, BitVec.toNat_append]
  simp only [BitVec.extractLsb'_toNat, BitVec.toNat_ofNat, Nat.shiftRight_eq_div_pow]
  rw [← Nat.shiftLeft_add_eq_or_of_lt (by omega), ← Nat.shiftLeft_add_eq_or_of_lt (by omega)]
  simp only [Nat.shiftLeft_eq]
  omega

/-- The fetch is what MemRead = 1 puts on the memory's output with IorD = 0, and MemRead = 0 puts nothing there (R41). -/
theorem fetch_from_datapath (s : State) (aluOut : Word) :
    memoryOutput true s (memoryAddress false s.pc aluOut) = s.fetch.map some ∧
    memoryOutput false s (memoryAddress false s.pc aluOut) = .ok none := by
  refine ⟨?_, rfl⟩
  simp only [memoryOutput, memoryAddress, State.fetch, if_true, if_false, Bool.false_eq_true]
  cases s.memRead s.pc 4 <;> rfl

/-- The signals that write change nothing when they are 0 (R41). -/
theorem write_signals_off (s : State) (addr v ir output : Word) (r : Reg) :
    memoryAfter false s addr v = .ok s ∧ registersAfter false s r v = s ∧ irAfter false ir output = ir := ⟨rfl, rfl, rfl⟩

/-- `sw` is what MemWrite = 1 does at the address IorD = 1 selects, and then the advance of pc (R41; 44_loadstore.md R175). -/
theorem store_from_datapath (s : State) (pc ea v : Word) :
    s.store ea 4 v.toNat = match memoryAfter true s (memoryAddress true pc ea) v with
      | .error f => .fault f
      | .ok t => .next t.advance := rfl

end Sys2Proof.Machine
end

