-- ==== Sys2Proof/Laws/Exec.lean ====
section
/-! SUPPORT. Once, everything one instruction and one step can do to the state when they answer next. -/

namespace Sys2Proof.Machine

/-- The shapes of an instruction's effect. -/
inductive Effect (s t : State) : Prop where
  /-- One register takes a value, pc goes on. -/
  | writes (dest : Reg) (v : Word) (h : t = (s.writeReg dest v).advance)
  /-- HI and LO take values, pc goes on. -/
  | setsHiLo (hi lo : Word) (h : t = (s.setHiLo hi lo).advance)
  /-- HI and LO take free values, pc goes on. -/
  | drawsHiLo (h : t = s.drawHiLo.advance)
  /-- An exception is entered. -/
  | enters (e : Exc) (h : raise e s = .next t)
  /-- An exception is entered with free values in HI and LO. -/
  | drawsAndEnters (e : Exc) (h : raise e s.drawHiLo = .next t)
  /-- pc takes a value. -/
  | jumps (p : Word) (h : t = s.jumpTo p)
  /-- A register and pc take values. -/
  | links (dest : Reg) (v p : Word) (h : t = (s.writeReg dest v).jumpTo p)
  /-- Memory is written, pc goes on. -/
  | stores (addr : Word) (n v : Nat) (u : State) (hw : s.memWrite addr n v = .ok u) (h : t = u.advance)
  /-- Memory and a register are written, pc goes on. -/
  | pushes (addr : Word) (n v : Nat) (u : State) (dest : Reg) (w : Word) (hw : s.memWrite addr n v = .ok u)
      (h : t = (u.writeReg dest w).advance)
  /-- Two registers are written, pc goes on. -/
  | pops (d d' : Reg) (v w : Word) (h : t = ((s.writeReg d v).writeReg d' w).advance)

theorem Effect.of_finishOrOverflow {s t : State} {o : Bool} {d : Reg} {v : Word}
    (h : s.finishOrOverflow o d v = .next t) : Effect s t := by
  rcases finishOrOverflow_cases s o d v with ⟨-, he⟩ | ⟨-, he⟩ <;> rw [he] at h
  · cases h
    exact .writes d v rfl
  · exact .enters .overflow h

theorem Effect.of_load {s t : State} {ea : Word} {n : Nat} {widen : Nat → Word} {d : Reg}
    (h : s.load ea n widen d = .next t) : Effect s t := by
  rcases load_cases s ea n widen d with ⟨v, -, he⟩ | ⟨f, -, he⟩ <;> rw [he] at h <;> cases h
  exact .writes d _ rfl

theorem Effect.of_store {s t : State} {ea : Word} {n v : Nat} (h : s.store ea n v = .next t) : Effect s t := by
  rcases store_cases s ea n v with ⟨u, hu, he⟩ | ⟨f, -, he⟩ <;> rw [he] at h <;> cases h
  exact .stores ea n v u hu rfl

theorem Effect.of_branch {s t : State} {taken : Bool} {imm : BitVec 16} (h : s.branch taken imm = .next t) :
    Effect s t := by
  rw [branch_eq] at h
  cases h
  exact .jumps _ rfl

theorem Effect.of_pushWord {s t : State} {v : Word} (h : s.pushWord v = .next t) : Effect s t := by
  rcases pushWord_cases s v with ⟨u, hu, he⟩ | ⟨f, -, he⟩ <;> rw [he] at h <;> cases h
  exact .pushes _ _ _ u _ _ hu rfl

theorem Effect.of_popWord {s t : State} {rt : Reg} (h : s.popWord rt = .next t) : Effect s t := by
  rcases popWord_cases s rt with ⟨v, -, he⟩ | ⟨f, -, he⟩ <;> rw [he] at h <;> cases h
  exact .pops _ _ _ _ rfl

theorem Effect.of_div {s t : State} {rs rt : Reg} (h : execDiv rs rt s = .next t) : Effect s t := by
  simp only [execDiv] at h
  split at h
  · exact .drawsAndEnters .divideByZero h
  · split at h <;> cases h
    · exact .drawsHiLo rfl
    · exact .setsHiLo _ _ rfl

theorem Effect.of_push {s t : State} {rt : Reg} (h : execPush rt s = .next t) : Effect s t := by
  simp only [execPush] at h
  split at h
  · split at h
    · cases h
    · exact .of_pushWord h
    · exact .of_pushWord h
  · exact .of_pushWord h

theorem Effect.of_pop {s t : State} {rt : Reg} (h : execPop rt s = .next t) : Effect s t := by
  simp only [execPop] at h
  split at h
  · split at h
    · cases h
    · exact .of_load h
    · exact .of_popWord h
  · exact .of_popWord h

/-- Every instruction that answers next has one of these shapes. -/
theorem exec_effect {i : Instr} {s t : State} (h : exec i s = .next t) : Effect s t := by
  cases i with
  | add | sub | addi => exact .of_finishOrOverflow h
  | and | slt | slti | lui | sll | srl | sllv | mfhi | mflo => cases h; exact .writes _ _ rfl
  | mult => cases h; exact .setsHiLo _ _ rfl
  | div => exact .of_div h
  | jr | j | rte => cases h; exact .jumps _ rfl
  | jal => cases h; exact .links _ _ _ rfl
  | beq | bne | ble | bgt => exact .of_branch h
  | lb | lh | lw => exact .of_load h
  | sb | sw => exact .of_store h
  | push => exact .of_push h
  | pop => exact .of_pop h

/-- A step that answers next ran the decoded instruction, or entered `NonexistentOpcode`. -/
theorem step_next_cases {s t : State} (h : step s = .next t) :
    (∃ w i, s.fetch = .ok w ∧ decodeWord w = .ok i ∧ exec i s = .next t) ∨
    (∃ w e, s.fetch = .ok w ∧ decodeWord w = .error e ∧ raise .nonexistentOpcode s = .next t) := by
  simp only [step] at h
  split at h
  · cases h
  · split at h
    · exact .inr ⟨_, _, ‹_›, ‹_›, h⟩
    · exact .inl ⟨_, _, ‹_›, ‹_›, h⟩

end Sys2Proof.Machine
end

