-- ==== Sys2Proof/Laws/PerInstr.lean ====
section
/-! SUPPORT. Statements made per instruction: the opcode and funct that an instruction's word carries
(30_encoding.md R85, R87, R88). -/

namespace Sys2Proof.Laws

/-- The opcode and funct columns of R88; the funct of an I- or J-format row is 0 and is not looked at. -/
def row : Instr → Nat × Nat
  | .add .. => (0x00, 0x20)
  | .and .. => (0x00, 0x24)
  | .div .. => (0x00, 0x1a)
  | .mult .. => (0x00, 0x18)
  | .jr .. => (0x00, 0x08)
  | .mfhi .. => (0x00, 0x10)
  | .mflo .. => (0x00, 0x12)
  | .sll .. => (0x00, 0x00)
  | .sllv .. => (0x00, 0x04)
  | .slt .. => (0x00, 0x2a)
  | .srl .. => (0x00, 0x02)
  | .sub .. => (0x00, 0x22)
  | .rte => (0x00, 0x13)
  | .push .. => (0x00, 0x05)
  | .pop .. => (0x00, 0x06)
  | .addi .. => (0x08, 0)
  | .beq .. => (0x04, 0)
  | .bne .. => (0x05, 0)
  | .ble .. => (0x06, 0)
  | .bgt .. => (0x07, 0)
  | .lb .. => (0x20, 0)
  | .lh .. => (0x21, 0)
  | .lui .. => (0x0f, 0)
  | .lw .. => (0x23, 0)
  | .sb .. => (0x28, 0)
  | .slti .. => (0x0a, 0)
  | .sw .. => (0x2b, 0)
  | .j .. => (0x02, 0)
  | .jal .. => (0x03, 0)

theorem encodeR_fields (rs rt rd : Reg) (shamt funct : Nat) (h : funct < 64) :
    opcodeOf (encodeR rs rt rd shamt funct) = 0 ∧ functOf (encodeR rs rt rd shamt funct) = funct := by
  have := rs.isLt; have := rt.isLt; have := rd.isLt
  simp only [opcodeOf, functOf, bits, encodeR, BitVec.toNat_ofNat]
  omega

theorem encodeI_opcode (op : Nat) (rs rt : Reg) (imm : BitVec 16) (h : op < 64) :
    opcodeOf (encodeI op rs rt imm) = op := by
  have := rs.isLt; have := rt.isLt; have := imm.isLt
  simp only [opcodeOf, bits, encodeI, BitVec.toNat_ofNat]
  omega

theorem encodeJ_opcode (op : Nat) (target : BitVec 26) (h : op < 64) : opcodeOf (encodeJ op target) = op := by
  have := target.isLt
  simp only [opcodeOf, bits, encodeJ, BitVec.toNat_ofNat]
  omega

/-- The word of an instruction carries its row's opcode and, for opcode 0, its row's funct. -/
def EncodeRow.Statement (i : Instr) : Prop :=
  opcodeOf (encode i) = (row i).1 ∧ ((row i).1 = 0 → functOf (encode i) = (row i).2)

theorem encodeRow_R (rs rt rd : Reg) (shamt funct : Nat) (h : funct < 64) (i : Instr)
    (he : encode i = encodeR rs rt rd shamt funct) (hr : row i = (0, funct)) : EncodeRow.Statement i := by
  have := encodeR_fields rs rt rd shamt funct h
  simp [EncodeRow.Statement, he, hr, this]

theorem encodeRow_I (op : Nat) (rs rt : Reg) (imm : BitVec 16) (h : op < 64) (h0 : op ≠ 0) (i : Instr)
    (he : encode i = encodeI op rs rt imm) (hr : row i = (op, 0)) : EncodeRow.Statement i := by
  have := encodeI_opcode op rs rt imm h
  simp [EncodeRow.Statement, he, hr, this, h0]

theorem encodeRow_J (op : Nat) (target : BitVec 26) (h : op < 64) (h0 : op ≠ 0) (i : Instr)
    (he : encode i = encodeJ op target) (hr : row i = (op, 0)) : EncodeRow.Statement i := by
  have := encodeJ_opcode op target h
  simp [EncodeRow.Statement, he, hr, this, h0]

theorem EncodeRow.add (rd : Reg) (rs : Reg) (rt : Reg) : EncodeRow.Statement (.add rd rs rt) :=
  encodeRow_R rs rt rd 0 0x20 (by decide) _ rfl rfl
theorem EncodeRow.and (rd : Reg) (rs : Reg) (rt : Reg) : EncodeRow.Statement (.and rd rs rt) :=
  encodeRow_R rs rt rd 0 0x24 (by decide) _ rfl rfl
theorem EncodeRow.div (rs : Reg) (rt : Reg) : EncodeRow.Statement (.div rs rt) :=
  encodeRow_R rs rt 0 0 0x1a (by decide) _ rfl rfl
theorem EncodeRow.mult (rs : Reg) (rt : Reg) : EncodeRow.Statement (.mult rs rt) :=
  encodeRow_R rs rt 0 0 0x18 (by decide) _ rfl rfl
theorem EncodeRow.jr (rs : Reg) : EncodeRow.Statement (.jr rs) :=
  encodeRow_R rs 0 0 0 0x08 (by decide) _ rfl rfl
theorem EncodeRow.mfhi (rd : Reg) : EncodeRow.Statement (.mfhi rd) :=
  encodeRow_R 0 0 rd 0 0x10 (by decide) _ rfl rfl
theorem EncodeRow.mflo (rd : Reg) : EncodeRow.Statement (.mflo rd) :=
  encodeRow_R 0 0 rd 0 0x12 (by decide) _ rfl rfl
theorem EncodeRow.sll (rd : Reg) (rt : Reg) (shamt : Nat) : EncodeRow.Statement (.sll rd rt shamt) :=
  encodeRow_R 0 rt rd shamt 0x00 (by decide) _ rfl rfl
theorem EncodeRow.sllv (rd : Reg) (rs : Reg) (rt : Reg) : EncodeRow.Statement (.sllv rd rs rt) :=
  encodeRow_R rs rt rd 0 0x04 (by decide) _ rfl rfl
theorem EncodeRow.slt (rd : Reg) (rs : Reg) (rt : Reg) : EncodeRow.Statement (.slt rd rs rt) :=
  encodeRow_R rs rt rd 0 0x2a (by decide) _ rfl rfl
theorem EncodeRow.srl (rd : Reg) (rt : Reg) (shamt : Nat) : EncodeRow.Statement (.srl rd rt shamt) :=
  encodeRow_R 0 rt rd shamt 0x02 (by decide) _ rfl rfl
theorem EncodeRow.sub (rd : Reg) (rs : Reg) (rt : Reg) : EncodeRow.Statement (.sub rd rs rt) :=
  encodeRow_R rs rt rd 0 0x22 (by decide) _ rfl rfl
theorem EncodeRow.rte : EncodeRow.Statement (.rte) :=
  encodeRow_R 0 0 0 0 0x13 (by decide) _ rfl rfl
theorem EncodeRow.push (rt : Reg) : EncodeRow.Statement (.push rt) :=
  encodeRow_R 0 rt 0 0 0x05 (by decide) _ rfl rfl
theorem EncodeRow.pop (rt : Reg) : EncodeRow.Statement (.pop rt) :=
  encodeRow_R 0 rt 0 0 0x06 (by decide) _ rfl rfl
theorem EncodeRow.addi (rt rs : Reg) (imm : BitVec 16) : EncodeRow.Statement (.addi rt rs imm) :=
  encodeRow_I 0x8 rs rt imm (by decide) (by decide) _ rfl rfl
theorem EncodeRow.lb (rt rs : Reg) (imm : BitVec 16) : EncodeRow.Statement (.lb rt rs imm) :=
  encodeRow_I 0x20 rs rt imm (by decide) (by decide) _ rfl rfl
theorem EncodeRow.lh (rt rs : Reg) (imm : BitVec 16) : EncodeRow.Statement (.lh rt rs imm) :=
  encodeRow_I 0x21 rs rt imm (by decide) (by decide) _ rfl rfl
theorem EncodeRow.lw (rt rs : Reg) (imm : BitVec 16) : EncodeRow.Statement (.lw rt rs imm) :=
  encodeRow_I 0x23 rs rt imm (by decide) (by decide) _ rfl rfl
theorem EncodeRow.sb (rt rs : Reg) (imm : BitVec 16) : EncodeRow.Statement (.sb rt rs imm) :=
  encodeRow_I 0x28 rs rt imm (by decide) (by decide) _ rfl rfl
theorem EncodeRow.slti (rt rs : Reg) (imm : BitVec 16) : EncodeRow.Statement (.slti rt rs imm) :=
  encodeRow_I 0xa rs rt imm (by decide) (by decide) _ rfl rfl
theorem EncodeRow.sw (rt rs : Reg) (imm : BitVec 16) : EncodeRow.Statement (.sw rt rs imm) :=
  encodeRow_I 0x2b rs rt imm (by decide) (by decide) _ rfl rfl
theorem EncodeRow.beq (rs rt : Reg) (imm : BitVec 16) : EncodeRow.Statement (.beq rs rt imm) :=
  encodeRow_I 0x4 rs rt imm (by decide) (by decide) _ rfl rfl
theorem EncodeRow.bne (rs rt : Reg) (imm : BitVec 16) : EncodeRow.Statement (.bne rs rt imm) :=
  encodeRow_I 0x5 rs rt imm (by decide) (by decide) _ rfl rfl
theorem EncodeRow.ble (rs rt : Reg) (imm : BitVec 16) : EncodeRow.Statement (.ble rs rt imm) :=
  encodeRow_I 0x6 rs rt imm (by decide) (by decide) _ rfl rfl
theorem EncodeRow.bgt (rs rt : Reg) (imm : BitVec 16) : EncodeRow.Statement (.bgt rs rt imm) :=
  encodeRow_I 0x7 rs rt imm (by decide) (by decide) _ rfl rfl
theorem EncodeRow.lui (rt : Reg) (imm : BitVec 16) : EncodeRow.Statement (.lui rt imm) :=
  encodeRow_I 0x0f 0 rt imm (by decide) (by decide) _ rfl rfl
theorem EncodeRow.j (target : BitVec 26) : EncodeRow.Statement (.j target) :=
  encodeRow_J 0x2 target (by decide) (by decide) _ rfl rfl
theorem EncodeRow.jal (target : BitVec 26) : EncodeRow.Statement (.jal target) :=
  encodeRow_J 0x3 target (by decide) (by decide) _ rfl rfl

end Sys2Proof.Laws
end

