-- ==== Sys2Proof/Tests/Slice0.lean ====
section
/-! SUPPORT. The model's own tests: the decoding of words written out from 30_encoding.md R88 and 95_test_vectors.md 2.1, one
step on the derived vectors of 95_test_vectors.md 2.2 to 2.8, the WellFormed smoke, and a witness for every statement that
has hypotheses. -/

namespace Sys2Proof.Tests

open Sys2Proof.Machine Sys2Proof.Claims

/-- A machine with 256 bytes of memory. -/
def machine (o : ByteOrder) : Params where
  byteOrder := o
  r0Hardwired := true
  memSize := 256
  stackSelf := .refuse

/-- A small launch state. -/
def start (o : ByteOrder) (pc : Word) (regs : List (Reg × Word)) (mem : List Host.Cell) : State :=
  launch { params := machine o, pc := pc, regs := regs, mem := mem }

/-- The next state of an answer, and the reset state where there is none. -/
def nextOf : Result → State
  | .next t => t
  | .fault _ => State.reset
  | .refused _ => State.reset

/-- The answer is a next state. -/
def isNext : Result → Bool
  | .next _ => true
  | .fault _ => false
  | .refused _ => false

theorem eq_nextOf {r : Result} (h : isNext r = true) : r = .next (nextOf r) := by
  cases r <;> first | rfl | cases h

/-- One step from `s` on the word `w` placed at pc. -/
def run (w : Nat) (s : State) : State := nextOf (step (s.withFetchWord 32 w))

/-! WellFormed -/

theorem test_wf_refuses_sll_32 : (Instr.sll 3 2 32).wf = false := by decide
theorem test_wf_refuses_srl_32 : (Instr.srl 3 2 32).wf = false := by decide
theorem test_wf_accepts_sll_31 : (Instr.sll 3 2 31).wf = true := by decide

/-! Decoding, on the words of 95_test_vectors.md 2.1 -/

theorem test_decode_add : decodeWord 0x00221820 = .ok (.add 3 1 2) ∧ encode (.add 3 1 2) = 0x00221820 := by decide
theorem test_decode_and : decodeWord 0x00221824 = .ok (.and 3 1 2) ∧ encode (.and 3 1 2) = 0x00221824 := by decide
theorem test_decode_div : decodeWord 0x0022001A = .ok (.div 1 2) ∧ encode (.div 1 2) = 0x0022001A := by decide
theorem test_decode_mult : decodeWord 0x00220018 = .ok (.mult 1 2) ∧ encode (.mult 1 2) = 0x00220018 := by decide
theorem test_decode_jr : decodeWord 0x03E00008 = .ok (.jr 31) ∧ encode (.jr 31) = 0x03E00008 := by decide
theorem test_decode_mfhi : decodeWord 0x00001810 = .ok (.mfhi 3) ∧ encode (.mfhi 3) = 0x00001810 := by decide
theorem test_decode_mflo : decodeWord 0x00001812 = .ok (.mflo 3) ∧ encode (.mflo 3) = 0x00001812 := by decide
theorem test_decode_sll : decodeWord 0x00021940 = .ok (.sll 3 2 5) ∧ encode (.sll 3 2 5) = 0x00021940 := by decide
theorem test_decode_sllv : decodeWord 0x00221804 = .ok (.sllv 3 1 2) ∧ encode (.sllv 3 1 2) = 0x00221804 := by decide
theorem test_decode_slt : decodeWord 0x0022182A = .ok (.slt 3 1 2) ∧ encode (.slt 3 1 2) = 0x0022182A := by decide
theorem test_decode_srl : decodeWord 0x00021942 = .ok (.srl 3 2 5) ∧ encode (.srl 3 2 5) = 0x00021942 := by decide
theorem test_decode_sub : decodeWord 0x00221822 = .ok (.sub 3 1 2) ∧ encode (.sub 3 1 2) = 0x00221822 := by decide
theorem test_decode_rte : decodeWord 0x00000013 = .ok (.rte) ∧ encode (.rte) = 0x00000013 := by decide
theorem test_decode_push : decodeWord 0x00020005 = .ok (.push 2) ∧ encode (.push 2) = 0x00020005 := by decide
theorem test_decode_pop : decodeWord 0x00020006 = .ok (.pop 2) ∧ encode (.pop 2) = 0x00020006 := by decide
theorem test_decode_addi : decodeWord 0x2022FFFF = .ok (.addi 2 1 0xFFFF) ∧ encode (.addi 2 1 0xFFFF) = 0x2022FFFF := by decide
theorem test_decode_beq : decodeWord 0x10220003 = .ok (.beq 1 2 3) ∧ encode (.beq 1 2 3) = 0x10220003 := by decide
theorem test_decode_bne : decodeWord 0x1422FFFF = .ok (.bne 1 2 0xFFFF) ∧ encode (.bne 1 2 0xFFFF) = 0x1422FFFF := by decide
theorem test_decode_ble : decodeWord 0x18220003 = .ok (.ble 1 2 3) ∧ encode (.ble 1 2 3) = 0x18220003 := by decide
theorem test_decode_bgt : decodeWord 0x1C220003 = .ok (.bgt 1 2 3) ∧ encode (.bgt 1 2 3) = 0x1C220003 := by decide
theorem test_decode_lb : decodeWord 0x80220004 = .ok (.lb 2 1 4) ∧ encode (.lb 2 1 4) = 0x80220004 := by decide
theorem test_decode_lh : decodeWord 0x84220004 = .ok (.lh 2 1 4) ∧ encode (.lh 2 1 4) = 0x84220004 := by decide
theorem test_decode_lui : decodeWord 0x3C021234 = .ok (.lui 2 0x1234) ∧ encode (.lui 2 0x1234) = 0x3C021234 := by decide
theorem test_decode_lw : decodeWord 0x8C22FFFC = .ok (.lw 2 1 0xFFFC) ∧ encode (.lw 2 1 0xFFFC) = 0x8C22FFFC := by decide
theorem test_decode_sb : decodeWord 0xA0220004 = .ok (.sb 2 1 4) ∧ encode (.sb 2 1 4) = 0xA0220004 := by decide
theorem test_decode_slti : decodeWord 0x2822FFFF = .ok (.slti 2 1 0xFFFF) ∧ encode (.slti 2 1 0xFFFF) = 0x2822FFFF := by decide
theorem test_decode_sw : decodeWord 0xAC220004 = .ok (.sw 2 1 4) ∧ encode (.sw 2 1 4) = 0xAC220004 := by decide
theorem test_decode_j : decodeWord 0x0BFFFFFF = .ok (.j 0x3FFFFFF) ∧ encode (.j 0x3FFFFFF) = 0x0BFFFFFF := by decide
theorem test_decode_jal : decodeWord 0x0C000007 = .ok (.jal 7) ∧ encode (.jal 7) = 0x0C000007 := by decide
theorem test_decode_zero_word : decodeWord 0x00000000 = .ok (.sll 0 0 0) := by decide
theorem test_decode_ignores_shamt : decodeWord 0x00221860 = .ok (.add 3 1 2) := by decide
theorem test_decode_rejects_opcode : decodeWord 0x34000000 = .error (.nonexistentOpcode 0x0d) := by decide
theorem test_decode_rejects_funct : decodeWord 0x0000003F = .error (.nonexistentFunct 0x3f) := by decide
theorem test_decode_bytes_truncated : decodeBytes .big [0x00, 0x22, 0x18] = .error .truncated := by decide
theorem test_decode_table_word : decodeTableWord 32 0x00221820 = some (.add 3 1 2) := by decide

/-! One step, on the vectors of 95_test_vectors.md. 2.2: arithmetic and logic -/

/-- `x[1]` and `x[2]` given, vector bytes of S5 and routine H. -/
def two (a b : Word) : State := start .little 4 [(1, a), (2, b)] [(253, 0xE4), (254, 0xF0), (255, 0xE4)]

theorem test_add_crosses_zero : (run 0x00221820 (two 0xFFFFFFFF 1)).readReg 3 = 0 := by decide
theorem test_add_overflow_enters : (run 0x00221820 (two 0x7FFFFFFF 1)).pc = 0xF0 ∧
    (run 0x00221820 (two 0x7FFFFFFF 1)).epc = 4 := by decide
theorem test_sub_fits_at_minimum : (run 0x00221822 (two 0xFFFFFFFF 0x7FFFFFFF)).readReg 3 = 0x80000000 := by decide
theorem test_sub_overflow_enters : (run 0x00221822 (two 0 0x80000000)).pc = 0xF0 := by decide
theorem test_and : (run 0x00221824 (two 0xF0F0F0F0 0x0FF00FF0)).readReg 3 = 0x00F000F0 := by decide
theorem test_slt_extremes : (run 0x0022182A (two 0x80000000 0x7FFFFFFF)).readReg 3 = 1 := by decide
theorem test_addi_negative : (run 0x2022FFFF (two 5 0)).readReg 2 = 4 := by decide
theorem test_addi_overflow_keeps_rt : (run 0x20227FFF (two 0x7FFF8001 9)).pc = 0xF0 ∧
    (run 0x20227FFF (two 0x7FFF8001 9)).readReg 2 = 9 := by decide
theorem test_slti_sign_extends : (run 0x2822FFFF (two 0 9)).readReg 2 = 0 := by decide
theorem test_lui : (run 0x3C02FFFF (two 0 0)).readReg 2 = 0xFFFF0000 := by decide

/-! 2.3: multiplication, division, HI and LO -/

theorem test_mult_minus_seven_by_two : (run 0x00220018 (two 0xFFFFFFF9 2)).hi = 0xFFFFFFFF ∧
    (run 0x00220018 (two 0xFFFFFFF9 2)).lo = 0xFFFFFFF2 := by decide
theorem test_mult_extreme : (run 0x00220018 (two 0x80000000 0x7FFFFFFF)).hi = 0xC0000000 ∧
    (run 0x00220018 (two 0x80000000 0x7FFFFFFF)).lo = 0x80000000 := by decide
theorem test_div_minus_seven_by_two : (run 0x0022001A (two 0xFFFFFFF9 2)).lo = 0xFFFFFFFD ∧
    (run 0x0022001A (two 0xFFFFFFF9 2)).hi = 0xFFFFFFFF := by decide
theorem test_div_by_zero_enters : (run 0x0022001A (two 10 0)).pc = 0xE4 ∧
    (run 0x0022001A (two 10 0)).epc = 4 := by decide
theorem test_mfhi : (run 0x00001810 { two 0 0 with hi := 7 }).readReg 3 = 7 := by decide
theorem test_mflo : (run 0x00001812 { two 0 0 with lo := 9 }).readReg 3 = 9 := by decide

/-! 2.4: shifts -/

theorem test_sll_16 : (run 0x00021C00 (two 0 0x12345678)).readReg 3 = 0x56780000 := by decide
theorem test_srl_28 : (run 0x00021F02 (two 0 0xFFFFFFF9)).readReg 3 = 0x0000000F := by decide
theorem test_sllv_value_in_rs : (run 0x00221804 (two 4 1)).readReg 3 = 8 := by decide
theorem test_sllv_amount_33 : (run 0x00221804 (two 1 0x21)).readReg 3 = 2 := by decide

/-! 2.5: branches and jumps; A = 100 -/

/-- `x[1]` and `x[2]` given, at address 100. -/
def at100 (a b : Word) : State := start .big 100 [(1, a), (2, b)] []

theorem test_beq_taken : (run 0x10220003 (at100 5 5)).pc = 116 := by decide
theorem test_beq_not_taken : (run 0x10220003 (at100 5 6)).pc = 104 := by decide
theorem test_bne_to_itself : (run 0x1422FFFF (at100 5 6)).pc = 100 := by decide
theorem test_bne_not_taken : (run 0x14220003 (at100 5 5)).pc = 104 := by decide
theorem test_ble_signed : (run 0x18220003 (at100 0xFFFFFFFF 0)).pc = 116 := by decide
theorem test_ble_not_taken : (run 0x18220003 (at100 0 0xFFFFFFFF)).pc = 104 := by decide
theorem test_bgt_signed : (run 0x1C220003 (at100 0 0xFFFFFFFF)).pc = 116 := by decide
theorem test_bgt_equal_not_taken : (run 0x1C220003 (at100 5 5)).pc = 104 := by decide
theorem test_j_region_of_next : (nextOf (execJ 1 { at100 0 0 with pc := 0x0FFFFFFC })).pc = 0x10000004 := by decide
theorem test_jal_links : (run 0x0C000007 (start .big 16 [] [])).readReg 31 = 20 ∧
    (run 0x0C000007 (start .big 16 [] [])).pc = 28 := by decide
theorem test_jr_keeps_low_bits : (run 0x00200008 (at100 0x66 0)).pc = 0x66 := by decide

/-! 2.6: loads and stores -/

/-- The memory of 95_test_vectors.md 2.6, x[1] = 64. -/
def loads (o : ByteOrder) (v : Word) : State :=
  start o 0 [(1, 64), (2, v)] [(64, 0x11), (65, 0x22), (66, 0x33), (67, 0x84), (68, 0x55)]

theorem test_lb_sign : (run 0x80220003 (loads .little 0)).readReg 2 = 0xFFFFFF84 := by decide
theorem test_lh_little : (run 0x84220002 (loads .little 0)).readReg 2 = 0xFFFF8433 := by decide
theorem test_lh_big : (run 0x84220002 (loads .big 0)).readReg 2 = 0x00003384 := by decide
theorem test_lw_misaligned_little : (run 0x8C220001 (loads .little 0)).readReg 2 = 0x55843322 := by decide
theorem test_lw_misaligned_big : (run 0x8C220001 (loads .big 0)).readReg 2 = 0x22338455 := by decide
theorem test_sb_one_byte : (run 0xA0220001 (loads .big 0x12345678)).mem.read 65 = some 0x78 ∧
    (run 0xA0220001 (loads .big 0x12345678)).mem.read 66 = some 0x33 := by decide
theorem test_sw_little : (run 0xAC220000 (loads .little 0xAABBCCDD)).mem.read 64 = some 0xDD ∧
    (run 0xAC220000 (loads .little 0xAABBCCDD)).mem.read 67 = some 0xAA := by decide
theorem test_sw_big : (run 0xAC220000 (loads .big 0xAABBCCDD)).mem.read 64 = some 0xAA := by decide

/-! 2.7: stack, the source's own example at 227 -/

/-- SP = 227, x[2] = 0xCAFEBABE, and that word at 223. -/
def stack (o : ByteOrder) (sp : Word) : State :=
  start o 0 [(29, sp), (2, 0xCAFEBABE)] [(223, 0xBE), (224, 0xBA), (225, 0xFE), (226, 0xCA)]

theorem test_push_at_227 : (run 0x00020005 (stack .big 227)).readReg 29 = 223 ∧
    (run 0x00020005 (stack .big 227)).mem.read 223 = some 0xCA := by decide
theorem test_push_wrapped_not_admitted : isNext (step ((stack .big 2).withFetchWord 32 0x00020005)) = false := by decide
theorem test_pop_at_223 : (run 0x00030006 (stack .little 223)).readReg 3 = 0xCAFEBABE ∧
    (run 0x00030006 (stack .little 223)).readReg 29 = 227 := by decide
theorem test_pop_sp_refused : isNext (step ((stack .little 223).withFetchWord 32 0x001D0006)) = false := by decide

/-! 2.8: exceptions and rte -/

theorem test_rte : (run 0x00000013 { two 0 0 with epc := 12, pc := 248 }).pc = 12 := by decide
theorem test_undefined_opcode_enters : (run 0xFC000000 (two 0 0)).pc = 0xE4 ∧
    (run 0xFC000000 (two 0 0)).epc = 4 := by decide
theorem test_datapath_memRead : memoryOutput true (loads .big 0) 64 = .ok (some 0x11223384) ∧
    memoryOutput false (loads .big 0) 64 = .ok none := by decide
theorem test_asm_bne : asm (.bne 9 10 0xFFFD) = "bne $9,$10,-3" := by decide
theorem test_asm_lw : asm (.lw 2 1 0xFFFC) = "lw $2,-4($1)" := by decide
theorem test_cycles_sb : cycles (.sb 2 1 4) = 6 := by decide
theorem test_alu_or_absent_comp_flags : (aluFlags .comp 0xFFFFFFFF 1).lt = some true ∧
    (aluFlags .comp 0xFFFFFFFF 1).z = none := by decide
theorem test_reset_fetch_unwritten : isNext (step State.reset) = false := by decide

/-! Witnesses: for each statement with hypotheses, a state and operands that meet them -/

theorem witness_DecodeOfEncodeIsIdentity : (Instr.sll 3 2 31).wf = true := by decide

theorem witness_UndefinedWordsAreRejected :
    opcodeOf 0x04000000 ∉ definedOpcodes ∧ opcodeOf 0xFC000000 ∉ definedOpcodes ∧
    (opcodeOf 0x00000001 = 0 ∧ functOf 0x00000001 ∉ definedFuncts) ∧
    (opcodeOf 0x0000002a ∈ definedOpcodes ∧ functOf 0x0000002a ∈ definedFuncts) := by decide

/-- The vector bytes of `two` are ready. -/
theorem two_vectors_ready : VectorReady (two 0x7FFFFFFF 1) 254 ∧ VectorReady (two 10 0) 255 ∧ VectorReady (two 0 0) 253 :=
  ⟨⟨by decide, 0xF0, by decide⟩, ⟨by decide, 0xE4, by decide⟩, ⟨by decide, 0xE4, by decide⟩⟩

theorem witness_AddWritesSumOrRaisesOverflow :
    Fits (((two 0x7FFFFFFE 1).readReg 1).toInt + ((two 0x7FFFFFFE 1).readReg 2).toInt) ∧
    ¬Fits (((two 0x7FFFFFFF 1).readReg 1).toInt + ((two 0x7FFFFFFF 1).readReg 2).toInt) ∧
    VectorReady (two 0x7FFFFFFF 1) 254 := by
  refine ⟨?_, ?_, two_vectors_ready.1⟩ <;> simp only [Fits] <;> decide

theorem witness_SubWritesDifferenceOrRaisesOverflow :
    Fits (((two 0x7FFFFFFF 1).readReg 2).toInt - ((two 0x7FFFFFFF 1).readReg 1).toInt) ∧
    (∃ s : State, ¬Fits ((s.readReg 1).toInt - (s.readReg 2).toInt) ∧ VectorReady s 254) := by
  refine ⟨by simp only [Fits]; decide, two 0 0x80000000, by simp only [Fits]; decide, by decide, 0xF0, by decide⟩

theorem witness_AddiWritesSumOrRaisesOverflow :
    Fits (((two 0x7FFF8000 0).readReg 1).toInt + (0x7FFF : BitVec 16).toInt) ∧
    ¬Fits (((two 0x7FFFFFFF 1).readReg 1).toInt + (0x0001 : BitVec 16).toInt) ∧
    VectorReady (two 0x7FFFFFFF 1) 254 := by
  refine ⟨?_, ?_, two_vectors_ready.1⟩ <;> simp only [Fits] <;> decide

theorem witness_AndWritesBitwiseAnd :
    opcodeOf 0x00221824 = 0 ∧ functOf 0x00221824 = 0x24 ∧ (∀ n ∈ [shamtOf 0x00221824], n = 0) := by decide
theorem witness_MultWritesExactProduct :
    opcodeOf 0x00220018 = 0 ∧ functOf 0x00220018 = 0x18 ∧
    (∀ n ∈ [(rdOf 0x00220018).val, shamtOf 0x00220018], n = 0) := by decide
theorem witness_SllShiftsLeftByShamt :
    opcodeOf 0x00021940 = 0 ∧ functOf 0x00021940 = 0x00 ∧ (∀ n ∈ [(rsOf 0x00021940).val], n = 0) ∧ 31 < 32 := by decide
theorem witness_SrlShiftsRightLogically :
    opcodeOf 0x00021942 = 0 ∧ functOf 0x00021942 = 0x02 ∧ (∀ n ∈ [(rsOf 0x00021942).val], n = 0) ∧ 31 < 32 := by decide
theorem witness_JrGoesToRegister :
    opcodeOf 0x03E00008 = 0 ∧ functOf 0x03E00008 = 0x08 ∧
    (∀ n ∈ [(rtOf 0x03E00008).val, (rdOf 0x03E00008).val, shamtOf 0x03E00008], n = 0) := by decide
theorem witness_RteCopiesEpcToPc :
    opcodeOf 0x00000013 = 0 ∧ functOf 0x00000013 = 0x13 ∧
    (∀ n ∈ [(rsOf 0x00000013).val, (rtOf 0x00000013).val, (rdOf 0x00000013).val, shamtOf 0x00000013], n = 0) := by decide
theorem witness_MoveFromHiLoCopies :
    (opcodeOf 0x00001810 = 0 ∧ functOf 0x00001810 = 0x10 ∧
      (∀ n ∈ [(rsOf 0x00001810).val, (rtOf 0x00001810).val, shamtOf 0x00001810], n = 0)) ∧
    opcodeOf 0x00001812 = 0 ∧ functOf 0x00001812 = 0x12 ∧
      (∀ n ∈ [(rsOf 0x00001812).val, (rtOf 0x00001812).val, shamtOf 0x00001812], n = 0) := by decide
theorem witness_LuiWritesUpperImmediate : opcodeOf 0x3C021234 = 0x0f ∧ (∀ n ∈ [(rsOf 0x3C021234).val], n = 0) := by decide
theorem witness_JumpGoesToRegionTarget : opcodeOf 0x08000009 = 0x02 := by decide

theorem witness_DivWritesQuotientAndRemainder :
    ((two 0x80000000 1).readReg 2 ≠ 0 ∧
      ¬(((two 0x80000000 1).readReg 1).toInt = -2 ^ 31 ∧ ((two 0x80000000 1).readReg 2).toInt = -1)) ∧
    ((two 0x7FFFFFFF 0xFFFFFFFF).readReg 2 ≠ 0 ∧
      ¬(((two 0x7FFFFFFF 0xFFFFFFFF).readReg 1).toInt = -2 ^ 31 ∧
        ((two 0x7FFFFFFF 0xFFFFFFFF).readReg 2).toInt = -1)) := by decide

theorem witness_DivOpenResultsRaiseOrGoOn :
    ((two 10 0).readReg 2 = 0 ∧ VectorReady (two 10 0) 255) ∧
    ((two 0x80000000 0xFFFFFFFF).readReg 1).toInt = -2 ^ 31 ∧
    ((two 0x80000000 0xFFFFFFFF).readReg 2).toInt = -1 :=
  ⟨⟨by decide, two_vectors_ready.2.1⟩, by decide, by decide⟩

/-- The four bytes at 65 and at 68 of `loads`: 65 is not a multiple of 4. -/
theorem witness_loads (o : ByteOrder) :
    Holds (loads o 0) (ea (loads o 0) 1 1) 0 0x22 ∧ Holds (loads o 0) (ea (loads o 0) 1 1) 1 0x33 ∧
    Holds (loads o 0) (ea (loads o 0) 1 1) 2 0x84 ∧ Holds (loads o 0) (ea (loads o 0) 1 1) 3 0x55 := by
  cases o <;> simp only [Holds] <;> decide

theorem witness_LbLoadsSignExtendedByte : Holds (loads .big 0) (ea (loads .big 0) 1 1) 0 0x22 := (witness_loads _).1
theorem witness_LhLoadsSignExtendedHalfword : Holds (loads .big 0) (ea (loads .big 0) 1 1) 0 0x22 ∧
    Holds (loads .big 0) (ea (loads .big 0) 1 1) 1 0x33 := ⟨(witness_loads _).1, (witness_loads _).2.1⟩
theorem witness_LwLoadsWord : Holds (loads .little 0) (ea (loads .little 0) 1 1) 0 0x22 ∧
    Holds (loads .little 0) (ea (loads .little 0) 1 1) 1 0x33 ∧
    Holds (loads .little 0) (ea (loads .little 0) 1 1) 2 0x84 ∧
    Holds (loads .little 0) (ea (loads .little 0) 1 1) 3 0x55 := witness_loads _

/-- The last byte of memory, and the last four. -/
theorem witness_SbStoresLowByte : Backed (loads .little 0) (ea (loads .little 0) 1 191) 1 := by
  simp only [Backed]; decide
theorem witness_SwStoresWord : Backed (loads .little 0) (ea (loads .little 0) 1 188) 4 := by
  simp only [Backed]; decide

/-- `loads` with SP in register 29. -/
def withSp (sp : Word) : State := (loads .little 0).writeReg 29 sp

/-- `lw` and `sw` at 254 leave memory at their third byte, `lh` at 255 at its second, `lb` and `sb` at 256 at their first,
`pop` at 253 at its fourth, `push` with SP = 3 wraps and leaves it at its first, and so does a fetch at 256. -/
theorem witness_unbacked_accesses :
    (loadsFrom (loads .little 0) (.lw 2 1 190) = some (254, 4) ∧ storesTo (loads .little 0) (.sw 2 1 190) = some (254, 4) ∧
      FirstUnbacked (loads .little 0) 254 4 2) ∧
    (loadsFrom (loads .little 0) (.lh 2 1 191) = some (255, 2) ∧ FirstUnbacked (loads .little 0) 255 2 1) ∧
    (loadsFrom (loads .little 0) (.lb 2 1 192) = some (256, 1) ∧ storesTo (loads .little 0) (.sb 2 1 192) = some (256, 1) ∧
      FirstUnbacked (loads .little 0) 256 1 0) ∧
    (loadsFrom (withSp 253) (.pop 3) = some (253, 4) ∧ FirstUnbacked (withSp 253) 253 4 3 ∧ ¬SelfRefused (withSp 253) (.pop 3)) ∧
    (storesTo (withSp 3) (.push 3) = some (0xFFFFFFFF, 4) ∧ FirstUnbacked (withSp 3) 0xFFFFFFFF 4 0 ∧
      ¬SelfRefused (withSp 3) (.push 3)) ∧
    FirstUnbacked { loads .little 0 with pc := 256 } 256 4 0 := by
  simp only [FirstUnbacked, SelfRefused]; decide

/-- `lw` at 66 is backed and its fourth byte is unwritten, as are `lh`'s second at 68, `lb`'s at 69, `pop`'s second at 68
and a fetch's fourth at 66. -/
theorem witness_unwritten_accesses :
    (loadsFrom (loads .little 0) (.lw 2 1 2) = some (66, 4) ∧ FirstUnwritten (loads .little 0) 66 4 3) ∧
    (loadsFrom (loads .little 0) (.lh 2 1 4) = some (68, 2) ∧ FirstUnwritten (loads .little 0) 68 2 1) ∧
    (loadsFrom (loads .little 0) (.lb 2 1 5) = some (69, 1) ∧ FirstUnwritten (loads .little 0) 69 1 0) ∧
    (loadsFrom (withSp 68) (.pop 3) = some (68, 4) ∧ FirstUnwritten (withSp 68) 68 4 1) ∧
    FirstUnwritten { loads .little 0 with pc := 66 } 66 4 3 := by
  have h (s : State) (a : Nat) : (∃ b, s.mem.read a = some b) ↔ (s.mem.read a).isSome = true :=
    Option.isSome_iff_exists.symm
  simp only [FirstUnwritten, Backed, h]; decide

theorem witness_UnbackedOrUnwrittenAccessFaults :
    ¬SelfRefused (loads .little 0) (.lw 2 1 190) ∧ FirstUnbacked (loads .little 0) 254 4 2 ∧
    FirstUnwritten (loads .little 0) 66 4 3 :=
  ⟨by simp only [SelfRefused]; decide, witness_unbacked_accesses.1.2.2, witness_unwritten_accesses.1.2⟩

theorem witness_PushDecrementsAndStores :
    (opcodeOf 0x00020005 = 0 ∧ functOf 0x00020005 = 0x05 ∧
      (∀ n ∈ [(rsOf 0x00020005).val, (rdOf 0x00020005).val, shamtOf 0x00020005], n = 0)) ∧ (2 : Reg) ≠ 29 ∧
    Backed (stack .little 4) ((stack .little 4).readReg 29 - 4) 4 ∧
    ¬Backed (stack .little 3) ((stack .little 3).readReg 29 - 4) 4 := by
  simp only [Backed]; decide

theorem witness_PopLoadsAndIncrements :
    (opcodeOf 0x00030006 = 0 ∧ functOf 0x00030006 = 0x06 ∧
      (∀ n ∈ [(rsOf 0x00030006).val, (rdOf 0x00030006).val, shamtOf 0x00030006], n = 0)) ∧ (3 : Reg) ≠ 29 ∧
    Holds (stack .little 223) ((stack .little 223).readReg 29) 0 0xBE ∧
    Holds (stack .little 223) ((stack .little 223).readReg 29) 1 0xBA ∧
    Holds (stack .little 223) ((stack .little 223).readReg 29) 2 0xFE ∧
    Holds (stack .little 223) ((stack .little 223).readReg 29) 3 0xCA := by
  simp only [Holds]; decide

/-- `stack` on a machine whose STACK_SELF_OPERAND is known. -/
def selfStack (sp : Word) (p : PushSelf) (q : PopSelf) : State :=
  launch { params := { machine .little with stackSelf := .run p q }, pc := 0, regs := [(29, sp)],
           mem := [(223, 0xBE), (224, 0xBA), (225, 0xFE), (226, 0xCA)] }

theorem witness_StackSelfOperandFollowsParameter :
    (stack .little 223).params.stackSelf = .refuse ∧
    (selfStack 223 .oldSp .loaded).params.stackSelf = .run .oldSp .loaded ∧
    Backed (selfStack 223 .oldSp .loaded) ((selfStack 223 .oldSp .loaded).readReg 29 - 4) 4 ∧
    Holds (selfStack 223 .oldSp .loaded) ((selfStack 223 .oldSp .loaded).readReg 29) 0 0xBE ∧
    Holds (selfStack 223 .oldSp .loaded) ((selfStack 223 .oldSp .loaded).readReg 29) 1 0xBA ∧
    Holds (selfStack 223 .oldSp .loaded) ((selfStack 223 .oldSp .loaded).readReg 29) 2 0xFE ∧
    Holds (selfStack 223 .oldSp .loaded) ((selfStack 223 .oldSp .loaded).readReg 29) 3 0xCA := by
  simp only [Backed, Holds]; decide

theorem witness_PopUndoesPush :
    (2 : Reg) ≠ 29 ∧ (3 : Reg) ≠ 29 ∧ ∃ t, exec (.push 2) (stack .big 227) = .next t :=
  ⟨by decide, by decide, _, eq_nextOf (by decide)⟩

theorem witness_EntrySavesAddressAndVectors : VectorReady (two 10 0) Exc.divideByZero.vector.toNat := two_vectors_ready.2.1

theorem witness_UnwrittenVectorByteFaults :
    256 ≤ (stack .big 227).params.memSize ∧ (stack .big 227).mem.read Exc.overflow.vector.toNat = none := by decide

/-- `two` with an undefined word at pc. -/
def undefinedAtPc : State := (two 0 0).withFetchWord 32 0xFC000000

theorem witness_UndefinedWordEntersNonexistentOpcode :
    undefinedAtPc.fetch = .ok 0xFC000000 ∧ decodeWord 0xFC000000 = .error (.nonexistentOpcode 0x3f) ∧
    VectorReady undefinedAtPc 253 := ⟨by decide, by decide, by decide, 0xE4, by decide⟩

theorem witness_ExactlyOverflowAndZeroDivideRaise :
    (∃ t, exec (.add 3 1 2) (two 0x7FFFFFFF 1) = .next t) ∧ raises (two 0x7FFFFFFF 1) (.add 3 1 2) = some 254 ∧
    (∃ t, exec (.add 3 1 2) (two 0x7FFFFFFE 1) = .next t) ∧ raises (two 0x7FFFFFFE 1) (.add 3 1 2) = none :=
  ⟨⟨_, eq_nextOf (by decide)⟩, by decide, ⟨_, eq_nextOf (by decide)⟩, by decide⟩

theorem witness_RteRepeatsTheException :
    raises (two 10 0) (.div 1 2) = some 255 ∧ ∃ t u : State, exec (.div 1 2) (two 10 0) = .next t ∧
      u.regs = t.regs ∧ u.mem = t.mem ∧ u.params = t.params ∧ u.epc = t.epc :=
  ⟨by decide, nextOf (exec (.div 1 2) (two 10 0)), nextOf (exec (.div 1 2) (two 10 0)), eq_nextOf (by decide), rfl, rfl,
    rfl, rfl⟩

/-- `at100` with `jal 7` at pc. -/
def jalAtPc : State := (at100 0 0).withFetchWord 32 0x0C000007

theorem witness_StepRunsDecodedInstruction :
    jalAtPc.fetch = .ok 0x0C000007 ∧ decodeWord 0x0C000007 = .ok (.jal 7) := by decide

theorem witness_PlacedInstructionIsRun :
    (Instr.jal 7).wf = true ∧ Backed { at100 0 0 with pc := 252 } 252 4 := by
  simp only [Backed]; decide

theorem witness_PcFollowsTableUnlessRaising :
    raises (at100 5 5) (.beq 1 2 3) = none ∧ ∃ t, exec (.beq 1 2 3) (at100 5 5) = .next t :=
  ⟨by decide, _, eq_nextOf (by decide)⟩

theorem witness_StepKeepsInvariant : jalAtPc.inv ∧ ∃ t, step jalAtPc = .next t :=
  ⟨by decide, _, eq_nextOf (by decide)⟩

theorem witness_OnlyListedRegistersAreWritten :
    (∃ t, exec (.pop 3) (stack .little 223) = .next t) ∧ (2 : Reg) ∉ writes (.pop 3) :=
  ⟨⟨_, eq_nextOf (by decide)⟩, by decide⟩

/-- Register 3 is the destination of the `pop` and register 2 that of the `lui`, and neither reads it. -/
theorem witness_UnlistedRegistersAreNotRead :
    ((3 : Reg) ∉ reads (.pop 3) ∧ (3 : Reg) ∈ writes (.pop 3) ∧ raises (stack .little 223) (.pop 3) = none ∧
      ∃ t, exec (.pop 3) (stack .little 223) = .next t ∧ t.draws = (stack .little 223).draws) ∧
    ((2 : Reg) ∉ reads (.lui 2 7) ∧ (2 : Reg) ∈ writes (.lui 2 7) ∧ raises (two 0 9) (.lui 2 7) = none ∧
      ∃ t, exec (.lui 2 7) (two 0 9) = .next t) :=
  ⟨⟨by decide, by decide, by decide, _, eq_nextOf (by decide), by decide⟩, by decide, by decide, by decide, _,
    eq_nextOf (by decide)⟩

/-- `two` with `mult $1,$2` at pc. -/
def multAtPc : State := (two 0xFFFFFFF9 2).withFetchWord 32 0x00220018

theorem witness_OnlyMultAndDivChangeHiLo :
    ∃ t, step multAtPc = .next t ∧ (t.hi ≠ multAtPc.hi ∨ t.lo ≠ multAtPc.lo) :=
  ⟨_, eq_nextOf (by decide), by decide⟩

theorem witness_OnlyEntryChangesEpc : ∃ t, step undefinedAtPc = .next t ∧ t.epc ≠ undefinedAtPc.epc :=
  ⟨_, eq_nextOf (by decide), by decide⟩

/-- `loads` with `sb $2,1($1)` at pc. -/
def sbAtPc : State := (loads .big 0x12345678).withFetchWord 32 0xA0220001

theorem witness_OnlyStoresChangeMemory : ∃ t, step sbAtPc = .next t ∧ t.mem.read 65 ≠ sbAtPc.mem.read 65 :=
  ⟨_, eq_nextOf (by decide), by decide⟩

theorem witness_OnlyStackSelfOperandIsRefused : ∃ r, exec (.push 29) (stack .big 227) = .refused r := ⟨_, rfl⟩

theorem witness_FaultsComeFromMemoryOnly : ∃ f, step State.reset = .fault f := ⟨_, rfl⟩

/-- `j 9` at 36, a jump to itself. -/
def endedState : State := (start .little 36 [] []).withFetchWord 32 0x08000009

theorem witness_EndedStateStaysUnchanged : endedState.ended := ⟨0x08000009, 9, by decide, by decide, by decide⟩

/-- A word stored over the end of the 32-bit address space: the access wraps. -/
def wrapped : State := launch { params := defaultParams, pc := 0 }

theorem witness_ReadAfterWriteReturnsValue :
    (∃ t, wrapped.memWrite 0xFFFFFFFE 4 0xAABBCCDD = .ok t) ∧ 0xAABBCCDD < 2 ^ (8 * 4) ∧
    (∃ t, wrapped.memWrite 0xFFFFFFFF 2 0xFFFF = .ok t) ∧ 0xFFFF < 2 ^ (8 * 2) ∧
    (∃ t, wrapped.memWrite 0xFFFFFFFF 1 0xFF = .ok t) ∧ 0xFF < 2 ^ (8 * 1) :=
  ⟨⟨_, rfl⟩, by decide, ⟨_, rfl⟩, by decide, ⟨_, rfl⟩, by decide⟩

theorem witness_MixedWidthReadsFollowByteOrder :
    ((∃ t, (loads .little 0).memWrite 252 4 0xAABBCCDD = .ok t) ∧ (loads .little 0).params.byteOrder = .little) ∧
    (∃ t, (loads .big 0).memWrite 252 4 0xAABBCCDD = .ok t) ∧ (loads .big 0).params.byteOrder = .big :=
  ⟨⟨⟨_, rfl⟩, rfl⟩, ⟨_, rfl⟩, rfl⟩

theorem witness_StoredWordIsFetched : ∃ t, exec (.sw 2 1 188) (loads .big 0xAABBCCDD) = .next t :=
  ⟨_, eq_nextOf (by decide)⟩

theorem witness_RegisterZeroFollowsParameter :
    (machine .big).r0Hardwired = true ∧ ({ machine .big with r0Hardwired := false } : Params).r0Hardwired = false := by
  decide

end Sys2Proof.Tests
end

/-! The ALU instructions `and` (40_alu.md R115) and `lui` (R119), with the rules they share with other rows: a row is
decoded by opcode and funct alone, and an instruction that ends in `finish` writes one register. -/

namespace Sys2Proof.Proofs

open Sys2Proof.Machine Sys2Proof.Claims

/-- Opcode 0 selects the R format, where the funct decides (30_encoding.md R86, R87). -/
theorem decodeWord_of_opcode_zero {w : Word} (hop : opcodeOf w = 0) : decodeWord w = decodeFunct w := by
  simp [decodeWord, hop]

/-- A row of R87 is settled by its funct alone: the decoder looks at no unused field. -/
theorem rowR_of_decodeFunct {funct : Nat} {i : Word → Instr}
    (hrow : ∀ w, functOf w = funct → decodeFunct w = .ok (i w)) (unused : Word → List Nat) : RowR funct unused i := by
  intro w hop hfn _
  rw [decodeWord_of_opcode_zero hop, hrow w hfn]

/-- A row of R85 is settled by its opcode alone: the decoder looks at no unused field. -/
theorem rowIJ_of_decodeWord {opcode : Nat} {i : Word → Instr}
    (hrow : ∀ w, opcodeOf w = opcode → decodeWord w = .ok (i w)) (unused : Word → List Nat) : RowIJ opcode unused i :=
  fun w hop _ => hrow w hop

theorem decodeFunct_and {w : Word} (hfn : functOf w = 0x24) :
    decodeFunct w = .ok (.and (rdOf w) (rsOf w) (rtOf w)) := by
  simp [decodeFunct, hfn]

theorem decodeWord_lui {w : Word} (hop : opcodeOf w = 0x0f) : decodeWord w = .ok (.lui (rtOf w) (immOf w)) := by
  simp [decodeWord, hop]

/-- Register `dest` takes the value unless it is a hard-wired register 0 (10_state.md R22). -/
theorem regsAfter_writeReg (s : State) (dest : Reg) (v : Word) : RegsAfter s (s.writeReg dest v) dest v := by
  intro r
  rw [readReg_writeReg]
  by_cases hr : r = dest
  · subst hr
    simp [isZeroReg]
  · simp [hr]

/-- The common end of an instruction that writes one register, with its whole frame (10_state.md R27). -/
theorem writesReg_writeReg_advance (s : State) (dest : Reg) (v : Word) :
    WritesReg s (s.writeReg dest v).advance dest v :=
  ⟨regsAfter_writeReg s dest v, rfl, ⟨rfl, rfl, rfl⟩, rfl, fun _ => rfl, rfl⟩

/-- An instruction whose meaning is `finish` completes and writes its one register. -/
theorem writesReg_of_exec_eq_finish {i : Instr} {s : State} {dest : Reg} {v : Word}
    (hexec : exec i s = s.finish dest v) : ∃ t, exec i s = .next t ∧ WritesReg s t dest v :=
  ⟨_, by rw [hexec, finish_eq], writesReg_writeReg_advance s dest v⟩

theorem exec_and (rd rs rt : Reg) (s : State) :
    exec (.and rd rs rt) s = s.finish rd (s.readReg rs &&& s.readReg rt) := rfl

theorem exec_lui (rt : Reg) (imm : BitVec 16) (s : State) : exec (.lui rt imm) s = s.finish rt (upperImm imm) := rfl

/-- The arithmetic reading of R119, `imm * 2^16`, is the concatenation `{imm, 0x0000}`. -/
theorem upperImm_eq_append (imm : BitVec 16) : upperImm imm = imm ++ 0#16 := by
  apply BitVec.eq_of_toNat_eq
  have himm := imm.isLt
  have hfits : imm.toNat * 2 ^ 16 < 2 ^ 32 := by omega
  rw [upperImm, BitVec.toNat_ofNat, Nat.mod_eq_of_lt hfits, BitVec.toNat_append]
  simp [Nat.shiftLeft_eq]

/-- Settles O7: the row is chosen by its funct, and the meaning ends in `finish`. -/
theorem andWritesBitwiseAnd : Obligations.AndWritesBitwiseAnd :=
  ⟨rowR_of_decodeFunct (fun _ => decodeFunct_and) _,
    fun rd rs rt s => writesReg_of_exec_eq_finish (exec_and rd rs rt s)⟩

/-- Settles O11: the row is chosen by its opcode, and the value written is the concatenation of R119. -/
theorem luiWritesUpperImmediate : Obligations.LuiWritesUpperImmediate := by
  refine ⟨rowIJ_of_decodeWord (fun _ => decodeWord_lui) _, fun rt imm s => ?_⟩
  rw [← upperImm_eq_append]
  exact writesReg_of_exec_eq_finish (exec_lui rt imm s)

end Sys2Proof.Proofs

/-! `mult` (41_muldiv.md R131) and the moves `mfhi`, `mflo` (R133, R134). HI and LO are the two halves of the product's
64-bit pattern, and 64 bits hold every product of two signed words. -/

namespace Sys2Proof.Proofs

open Sys2Proof.Machine Sys2Proof.Claims

theorem decodeFunct_mult {w : Word} (hfn : functOf w = 0x18) : decodeFunct w = .ok (.mult (rsOf w) (rtOf w)) := by
  simp [decodeFunct, hfn]

theorem decodeFunct_mfhi {w : Word} (hfn : functOf w = 0x10) : decodeFunct w = .ok (.mfhi (rdOf w)) := by
  simp [decodeFunct, hfn]

theorem decodeFunct_mflo {w : Word} (hfn : functOf w = 0x12) : decodeFunct w = .ok (.mflo (rdOf w)) := by
  simp [decodeFunct, hfn]

theorem exec_mult (rs rt : Reg) (s : State) :
    exec (.mult rs rt) s = .next (s.setHiLo ((product (s.readReg rs) (s.readReg rt)).extractLsb' 32 32)
      ((product (s.readReg rs) (s.readReg rt)).extractLsb' 0 32)).advance := rfl

theorem exec_mfhi (rd : Reg) (s : State) : exec (.mfhi rd) s = s.finish rd s.hi := rfl

theorem exec_mflo (rd : Reg) (s : State) : exec (.mflo rd) s = s.finish rd s.lo := rfl

/-- The product of two signed words lies between -2^62 and 2^62, so its 64-bit pattern loses nothing (R131). -/
theorem product_toInt (a b : Word) : (product a b).toInt = a.toInt * b.toInt := by
  have hlow : -2 ^ 62 ≤ a.toInt * b.toInt := BitVec.le_toInt_mul_toInt
  have hhigh : a.toInt * b.toInt ≤ 2 ^ 62 := BitVec.toInt_mul_toInt_le
  exact BitVec.toInt_ofInt_eq_self (by decide) (by omega) (by omega)

/-- A 64-bit pattern read as signed is its high half, signed, times 2^32 plus its low half, unsigned. -/
theorem toInt_eq_high_mul_add_low (p : BitVec 64) :
    (p.extractLsb' 32 32).toInt * 2 ^ 32 + (p.extractLsb' 0 32).toNat = p.toInt := by
  have hjoin : p.extractLsb' 32 32 ++ p.extractLsb' 0 32 = p :=
    (BitVec.extractLsb'_append_extractLsb'_eq_extractLsb' rfl).trans BitVec.extractLsb'_eq_self
  calc (p.extractLsb' 32 32).toInt * 2 ^ 32 + (p.extractLsb' 0 32).toNat
      = (p.extractLsb' 32 32 ++ p.extractLsb' 0 32).toInt := by
        rw [BitVec.toInt_append, if_neg (by decide), mul_comm]
    _ = p.toInt := congrArg BitVec.toInt hjoin

/-- What an instruction that sets HI and LO and goes on does to everything else. -/
theorem setHiLo_advance_frame (s : State) (h l : Word) :
    (s.setHiLo h l).advance.pc = s.pc + 4 ∧ SameRegs s (s.setHiLo h l).advance ∧ (s.setHiLo h l).advance.epc = s.epc ∧
    SameMem s (s.setHiLo h l).advance ∧ (s.setHiLo h l).advance.params = s.params ∧
    (s.setHiLo h l).advance.draws = s.draws :=
  ⟨rfl, fun _ => rfl, rfl, fun _ => rfl, rfl, rfl⟩

/-- Settles O12: HI and LO are the halves of the product's pattern, which is exact. -/
theorem multWritesExactProduct : Obligations.MultWritesExactProduct := by
  refine ⟨rowR_of_decodeFunct (fun _ => decodeFunct_mult) _,
    fun rs rt s => ⟨_, exec_mult rs rt s, ?_, setHiLo_advance_frame s _ _⟩⟩
  rw [advance_hi, advance_lo, setHiLo_hi, setHiLo_lo, toInt_eq_high_mul_add_low, product_toInt]

/-- Settles O15: each row is chosen by its funct, and each meaning ends in `finish` with the HI or LO it copies. -/
theorem moveFromHiLoCopies : Obligations.MoveFromHiLoCopies :=
  ⟨rowR_of_decodeFunct (fun _ => decodeFunct_mfhi) _, rowR_of_decodeFunct (fun _ => decodeFunct_mflo) _,
    fun rd s => ⟨writesReg_of_exec_eq_finish (exec_mfhi rd s), writesReg_of_exec_eq_finish (exec_mflo rd s)⟩⟩

end Sys2Proof.Proofs

/-! The shifts by an amount in the word, `sll` (42_shift.md R141) and `srl` (R142). The model states them by arithmetic, a
product modulo 2^32 and a quotient; the shifts of the bit pattern agree with it at every amount. -/

namespace Sys2Proof.Proofs

open Sys2Proof.Machine Sys2Proof.Claims

theorem decodeFunct_sll {w : Word} (hfn : functOf w = 0x00) :
    decodeFunct w = .ok (.sll (rdOf w) (rtOf w) (shamtOf w)) := by
  simp [decodeFunct, hfn]

theorem decodeFunct_srl {w : Word} (hfn : functOf w = 0x02) :
    decodeFunct w = .ok (.srl (rdOf w) (rtOf w) (shamtOf w)) := by
  simp [decodeFunct, hfn]

theorem exec_sll (rd rt : Reg) (shamt : Nat) (s : State) :
    exec (.sll rd rt shamt) s = s.finish rd (s.readReg rt <<< shamt) := by
  rw [← shiftLeft_eq]
  rfl

theorem exec_srl (rd rt : Reg) (shamt : Nat) (s : State) :
    exec (.srl rd rt shamt) s = s.finish rd (s.readReg rt >>> shamt) := by
  rw [← shiftRight_eq]
  rfl

/-- Settles O16: the row is chosen by its funct, and the meaning ends in `finish` with the word shifted left. -/
theorem sllShiftsLeftByShamt : Obligations.SllShiftsLeftByShamt :=
  ⟨rowR_of_decodeFunct (fun _ => decodeFunct_sll) _,
    fun rd rt shamt s _ => writesReg_of_exec_eq_finish (exec_sll rd rt shamt s)⟩

/-- Settles O17: the row is chosen by its funct, and the meaning ends in `finish` with the word shifted right, zeros in. -/
theorem srlShiftsRightLogically : Obligations.SrlShiftsRightLogically :=
  ⟨rowR_of_decodeFunct (fun _ => decodeFunct_srl) _,
    fun rd rt shamt s _ => writesReg_of_exec_eq_finish (exec_srl rd rt shamt s)⟩

end Sys2Proof.Proofs

/-! The jumps that link nothing, `j` (43_control.md R155) and `jr` (R157): each ends in `jumpTo`, which moves pc and nothing
else. The model's arithmetic target of `j` is the concatenation of the region bits, the 26-bit field and two zeros. -/

namespace Sys2Proof.Proofs

open Sys2Proof.Machine Sys2Proof.Claims

theorem decodeWord_j {w : Word} (hop : opcodeOf w = 0x02) : decodeWord w = .ok (.j (targetOf w)) := by
  simp [decodeWord, hop]

theorem decodeFunct_jr {w : Word} (hfn : functOf w = 0x08) : decodeFunct w = .ok (.jr (rsOf w)) := by
  simp [decodeFunct, hfn]

theorem exec_j (target : BitVec 26) (s : State) : exec (.j target) s = .next (s.jumpTo (s.jumpTarget target)) := rfl

theorem exec_jr (rs : Reg) (s : State) : exec (.jr rs) s = .next (s.jumpTo (s.readReg rs)) := rfl

/-- The common end of every jump, with its whole frame (10_state.md R28). -/
theorem movesPc_jumpTo (s : State) (p : Word) : MovesPc s (s.jumpTo p) p :=
  ⟨jumpTo_pc s p, jumpTo_readReg s p, ⟨jumpTo_hi s p, jumpTo_lo s p, jumpTo_draws s p⟩, jumpTo_epc s p, fun _ => rfl,
    jumpTo_params s p⟩

/-- The region bits of A + 4 lie above the 26 bits of the target, and these above two zeros: no part of R155's
concatenation overlaps another, so its value is a sum. -/
theorem jumpPc_toNat (s : State) (target : BitVec 26) :
    (jumpPc s target).toNat = s.nextPc.toNat / 2 ^ 28 * 2 ^ 28 + target.toNat * 4 := by
  have hregion : (s.nextPc.extractLsb' 28 4).toNat = s.nextPc.toNat / 2 ^ 28 := by
    have hpc := s.nextPc.isLt
    rw [BitVec.extractLsb'_toNat, Nat.shiftRight_eq_div_pow]
    omega
  calc (jumpPc s target).toNat
      = ((s.nextPc.extractLsb' 28 4).toNat <<< 26 ||| target.toNat) <<< 2 ||| 0 := by
        simp only [jumpPc, State.nextPc, BitVec.toNat_append, BitVec.toNat_ofNat, Nat.zero_mod]
    _ = (s.nextPc.toNat / 2 ^ 28 * 2 ^ 26 + target.toNat) * 2 ^ 2 := by
        rw [← Nat.shiftLeft_add_eq_or_of_lt target.isLt, Nat.or_zero, Nat.shiftLeft_eq, Nat.shiftLeft_eq, hregion]
    _ = s.nextPc.toNat / 2 ^ 28 * 2 ^ 28 + target.toNat * 4 := by omega

/-- The arithmetic reading of R155, region plus `target * 4`, is the concatenation the rule writes. -/
theorem jumpTarget_eq_jumpPc (s : State) (target : BitVec 26) : s.jumpTarget target = jumpPc s target := by
  rw [State.jumpTarget, ← jumpPc_toNat, BitVec.ofNat_toNat, BitVec.setWidth_eq]

/-- Settles O23: the row is chosen by its opcode, and the meaning jumps to the concatenation of R155. -/
theorem jumpGoesToRegionTarget : Obligations.JumpGoesToRegionTarget := by
  refine ⟨rowIJ_of_decodeWord (fun _ => decodeWord_j) _, fun target s => ⟨_, exec_j target s, ?_⟩⟩
  rw [jumpTarget_eq_jumpPc]
  exact movesPc_jumpTo s _

/-- Settles O25: the row is chosen by its funct, and the meaning jumps to the register as it stands. -/
theorem jrGoesToRegister : Obligations.JrGoesToRegister :=
  ⟨rowR_of_decodeFunct (fun _ => decodeFunct_jr) _, fun rs s => ⟨_, exec_jr rs s, movesPc_jumpTo s _⟩⟩

end Sys2Proof.Proofs

/-! `pop` of a register other than 29 (45_stack.md R191): four bytes that hold values are read as the word they make, and
the two register writes that follow meet in no register. -/

namespace Sys2Proof.Proofs

open Sys2Proof.Machine Sys2Proof.Claims

theorem decodeFunct_pop {w : Word} (hfn : functOf w = 0x06) : decodeFunct w = .ok (.pop (rtOf w)) := by
  simp [decodeFunct, hfn]

/-- A read whose bytes all hold values answers with their joined value (20_memory.md R54). -/
theorem memRead_of_holds {s : State} {ea : Word} {bs : List Byte}
    (hholds : ∀ k (hk : k < bs.length), Holds s ea k bs[k]) :
    s.memRead ea bs.length = .ok (joinBytes s.params.byteOrder bs) := by
  refine memRead_ok_iff.mpr ⟨fun a ha => ?_, bs, List.ext_getElem (by simp) fun k _ hk => ?_, rfl⟩
  · obtain ⟨k, hk, rfl⟩ := mem_accessAddrs.mp ha
    exact (hholds k hk).1
  · rw [List.getElem_map, List.getElem_map, accessAddrs_getElem]
    exact (hholds k (by simpa using hk)).2

/-- A byte put below a bit vector is its least significant base-256 digit. -/
theorem toNat_append_byte {n : Nat} (v : BitVec n) (b : Byte) : (v ++ b).toNat = b.toNat + 256 * v.toNat := by
  rw [BitVec.toNat_append, ← Nat.shiftLeft_add_eq_or_of_lt b.isLt, Nat.shiftLeft_eq]
  omega

/-- Four bytes joined by value are the concatenation of their patterns, in either byte order. -/
theorem widenWord_joinBytes (o : ByteOrder) (b0 b1 b2 b3 : Byte) :
    widenWord (joinBytes o [b0, b1, b2, b3]) = word o b0 b1 b2 b3 := by
  have hjoin : joinBytes o [b0, b1, b2, b3] = (word o b0 b1 b2 b3).toNat := by
    cases o <;> simp [joinBytes, joinLittle, word, toNat_append_byte]
  rw [hjoin, widenWord, BitVec.ofNat_toNat, BitVec.setWidth_eq]

/-- A word whose four bytes hold values is read as these bytes make it (20_memory.md R54). -/
theorem memRead_four_of_holds {s : State} {ea : Word} {b0 b1 b2 b3 : Byte}
    (h0 : Holds s ea 0 b0) (h1 : Holds s ea 1 b1) (h2 : Holds s ea 2 b2) (h3 : Holds s ea 3 b3) :
    s.memRead ea 4 = .ok (joinBytes s.params.byteOrder [b0, b1, b2, b3]) :=
  memRead_of_holds (bs := [b0, b1, b2, b3]) fun
    | 0, _ => h0
    | 1, _ => h1
    | 2, _ => h2
    | 3, _ => h3

/-- Only `pop $29` consults STACK_SELF_OPERAND (45_stack.md R192). -/
theorem exec_pop_of_ne {rt : Reg} (hrt : rt ≠ 29) (s : State) : exec (.pop rt) s = s.popWord rt :=
  if_neg hrt

/-- A pop whose read answers completes: the value to `rt`, then SP + 4 to register 29. -/
theorem popWord_of_memRead {s : State} {v : Nat} (hread : s.memRead s.popAddr 4 = .ok v) (rt : Reg) :
    s.popWord rt = .next ((s.writeReg rt (widenWord v)).writeReg spReg (s.popAddr + 4)).advance := by
  simp only [State.popWord, hread]

/-- The registers after a write to `dest` and then one to register 29, which is never hard-wired. -/
theorem readReg_writeReg_writeReg_sp (s : State) (dest : Reg) (v sp : Word) (r : Reg) :
    ((s.writeReg dest v).writeReg spReg sp).readReg r = if r = 29 then sp
      else if r = dest ∧ ¬(s.params.r0Hardwired = true ∧ r = 0) then v else s.readReg r := by
  rw [regsAfter_writeReg (s.writeReg dest v) spReg sp r, regsAfter_writeReg s dest v r]
  by_cases hr : r = 29
  · subst hr
    simp [spReg]
  · simp [spReg, hr]

/-- Settles O33: the row is chosen by its funct, the read at SP gives the word of the four bytes, and its two register
writes change neither memory nor what else the statement keeps. -/
theorem popLoadsAndIncrements : Obligations.PopLoadsAndIncrements := by
  refine ⟨rowR_of_decodeFunct (fun _ => decodeFunct_pop) _, fun rt s b0 b1 b2 b3 hrt h0 h1 h2 h3 => ?_⟩
  have hpop := popWord_of_memRead (memRead_four_of_holds h0 h1 h2 h3) rt
  rw [widenWord_joinBytes] at hpop
  exact ⟨_, (exec_pop_of_ne hrt s).trans hpop, readReg_writeReg_writeReg_sp s rt _ _, rfl, ⟨rfl, rfl, rfl⟩, rfl,
    fun _ => rfl, rfl⟩

end Sys2Proof.Proofs

/-! `rte` (46_system.md R200): its one row has no operands, and its meaning is the return from an exception, a jump to what
EPC holds. -/

namespace Sys2Proof.Proofs

open Sys2Proof.Machine Sys2Proof.Claims

theorem decodeFunct_rte {w : Word} (hfn : functOf w = 0x13) : decodeFunct w = .ok .rte := by
  simp [decodeFunct, hfn]

theorem exec_rte (s : State) : exec .rte s = .next (returnFromException s) := rfl

/-- The return is a jump to EPC, so it has the frame of a jump: EPC keeps its value (60_exceptions.md R219). -/
theorem movesPc_returnFromException (s : State) : MovesPc s (returnFromException s) s.epc :=
  movesPc_jumpTo s s.epc

/-- Settles O36: the row is chosen by its funct, and the meaning is the return from an exception. -/
theorem rteCopiesEpcToPc : Obligations.RteCopiesEpcToPc :=
  ⟨rowR_of_decodeFunct (fun _ => decodeFunct_rte) _,
    fun s => ⟨_, exec_rte s, movesPc_returnFromException s⟩⟩

end Sys2Proof.Proofs

/-! Taking an exception (60_exceptions.md R214): EPC takes the faulting instruction's own address, pc the zero-extended
vector byte, and nothing else changes. -/

namespace Sys2Proof.Proofs

open Sys2Proof.Machine Sys2Proof.Claims

/-- A zero-extended byte is a value in 0 .. 255 (R214). -/
theorem zext_byte_toNat_lt (b : Byte) : (zext b).toNat < 256 := by
  rw [zext, BitVec.toNat_setWidth_of_le (by decide)]
  exact b.isLt

/-- The state `raise_of_read` answers with is an entry through that vector byte. -/
theorem enters_of_read {s : State} {vec : Nat} {b : Byte} (hb : s.mem.read vec = some b) :
    Enters s { s with epc := s.pc, pc := zext b } vec :=
  ⟨⟨b, hb, rfl⟩, rfl, fun _ => rfl, fun _ => rfl, rfl⟩

/-- With its vector byte backed and written, an exception is taken, with the whole frame of the entry. -/
theorem raise_enters {e : Exc} {s : State} (hready : VectorReady s e.vector.toNat) :
    ∃ t, raise e s = .next t ∧ Enters s t e.vector.toNat ∧ SameHiLo s t ∧ t.pc.toNat < 256 := by
  obtain ⟨hbacked, b, hb⟩ := hready
  exact ⟨_, raise_of_read hbacked hb, enters_of_read hb, ⟨rfl, rfl, rfl⟩, zext_byte_toNat_lt b⟩

/-- Settles O37: the vector addresses are those of R210, and a readable vector byte is all an entry needs. -/
theorem entrySavesAddressAndVectors : Obligations.EntrySavesAddressAndVectors :=
  ⟨rfl, rfl, rfl, fun _ _ => raise_enters⟩

end Sys2Proof.Proofs

/-! Encoding (30_encoding.md section 3). What the decoder can answer is said once, for the functs and for the opcodes; the
statements about it are read off. An encoded word has its operands in their fields, so it decodes to its instruction. -/

namespace Sys2Proof.Proofs

open Sys2Proof.Machine Sys2Proof.Claims

/-- What the R-format rows of R87 can answer: the one instruction whose funct and fields the word has, or the rejection of
its funct. -/
theorem decodeFunct_cases {w : Word} (hop : opcodeOf w = 0) :
    (functOf w ∈ definedFuncts ∧ ∃ i, decodeFunct w = .ok i ∧ Matches w i) ∨
    (functOf w ∉ definedFuncts ∧ decodeFunct w = .error (.nonexistentFunct (functOf w))) := by
  simp only [decodeFunct]
  split
  case h_16 => exact .inr ⟨by simp_all [definedFuncts], rfl⟩
  all_goals
    rename_i hfn
    exact .inl ⟨by simp [hfn, definedFuncts], _, rfl, by simp [Matches, hop, hfn]⟩

/-- What decoding can answer (R85 to R90): the one instruction whose row the word selects, or the rejection of its funct or
its opcode. -/
theorem decodeWord_cases (w : Word) :
    (opcodeOf w ∈ definedOpcodes ∧ (opcodeOf w = 0 → functOf w ∈ definedFuncts) ∧
      ∃ i, decodeWord w = .ok i ∧ Matches w i) ∨
    (opcodeOf w = 0 ∧ functOf w ∉ definedFuncts ∧ decodeWord w = .error (.nonexistentFunct (functOf w))) ∨
    (opcodeOf w ∉ definedOpcodes ∧ decodeWord w = .error (.nonexistentOpcode (opcodeOf w))) := by
  by_cases hzero : opcodeOf w = 0
  · rw [decodeWord_of_opcode_zero hzero]
    rcases decodeFunct_cases hzero with ⟨hfn, hi⟩ | ⟨hfn, he⟩
    · exact .inl ⟨by simp [hzero, definedOpcodes], fun _ => hfn, hi⟩
    · exact .inr (.inl ⟨hzero, hfn, he⟩)
  · simp only [decodeWord]
    split
    case h_1 => contradiction
    case h_16 => exact .inr (.inr ⟨by simp_all [definedOpcodes], rfl⟩)
    all_goals
      rename_i hop
      exact .inl ⟨by simp [hop, definedOpcodes], by simp [hop], _, rfl, by simp [Matches, hop]⟩

theorem matches_of_decodeWord {w : Word} {i : Instr} (h : decodeWord w = .ok i) : Matches w i := by
  rcases decodeWord_cases w with ⟨-, -, i', hi, hm⟩ | ⟨-, -, he⟩ | ⟨-, he⟩
  · cases hi.symm.trans h
    exact hm
  · cases he.symm.trans h
  · cases he.symm.trans h

/-- A word that has the row and the operands of an instruction decodes to it, whatever its other bits are (D5). -/
theorem decodeWord_of_matches {w : Word} {i : Instr} (h : Matches w i) : decodeWord w = .ok i := by
  cases i with
  | add | and | slt | sllv | sub | sll | srl =>
    obtain ⟨hop, hfn, rfl, rfl, rfl⟩ := h
    simp [decodeWord, decodeFunct, hop, hfn]
  | div | mult =>
    obtain ⟨hop, hfn, rfl, rfl⟩ := h
    simp [decodeWord, decodeFunct, hop, hfn]
  | jr | mfhi | mflo | push | pop =>
    obtain ⟨hop, hfn, rfl⟩ := h
    simp [decodeWord, decodeFunct, hop, hfn]
  | rte =>
    obtain ⟨hop, hfn⟩ := h
    simp [decodeWord, decodeFunct, hop, hfn]
  | addi | beq | bne | ble | bgt | lb | lh | lw | sb | slti | sw =>
    obtain ⟨hop, rfl, rfl, rfl⟩ := h
    simp [decodeWord, hop]
  | lui =>
    obtain ⟨hop, rfl, rfl⟩ := h
    simp [decodeWord, hop]
  | j | jal =>
    obtain ⟨hop, rfl⟩ := h
    simp [decodeWord, hop]

/-- Settles O2: the decoder answers a row the word has, and the row and fields determine its answer. -/
theorem wordDecodesExactlyWhenFieldsMatch : Obligations.WordDecodesExactlyWhenFieldsMatch :=
  fun _ _ => ⟨matches_of_decodeWord, decodeWord_of_matches⟩

/-- Settles O3: the three things decoding can answer exclude one another by the word's opcode and funct. -/
theorem undefinedWordsAreRejected : Obligations.UndefinedWordsAreRejected := by
  intro w
  have hzero : 0 ∈ definedOpcodes := by decide
  rcases decodeWord_cases w with ⟨hop, hfn, i, hi, -⟩ | ⟨hop, hfn, he⟩ | ⟨hop, he⟩
  · exact ⟨fun hbad => absurd hop hbad, fun h0 hbad => absurd (hfn h0) hbad, fun _ _ => ⟨i, hi⟩⟩
  · exact ⟨fun hbad => absurd (hop ▸ hzero) hbad, fun _ _ => he, fun _ hdef => absurd (hdef hop) hfn⟩
  · exact ⟨fun _ => he, fun h0 _ => absurd (h0 ▸ hzero) hop, fun hdef => absurd hdef hop⟩

/-- Settles O4: each word has the opcode, funct and operand fields of its instruction. -/
theorem sampleWordsDecode : Obligations.SampleWordsDecode := by
  refine ⟨?_, ?_, ?_, ?_, ?_, ?_, ?_, ?_⟩ <;> exact decodeWord_of_matches (by unfold Matches; decide)

/-! The fields of an encoded word: the placed parts do not overlap (R81 to R83). -/

theorem encodeR_operands (rs rt rd : Reg) (shamt funct : Nat) (h : funct < 64) :
    rsOf (encodeR rs rt rd shamt funct) = rs ∧ rtOf (encodeR rs rt rd shamt funct) = rt ∧
    rdOf (encodeR rs rt rd shamt funct) = rd ∧ shamtOf (encodeR rs rt rd shamt funct) = shamt % 32 := by
  have := rs.isLt; have := rt.isLt; have := rd.isLt
  simp only [rsOf, rtOf, rdOf, shamtOf, bits, encodeR, BitVec.toNat_ofNat, Fin.ext_iff, Fin.val_ofNat]
  omega

theorem encodeI_operands (op : Nat) (rs rt : Reg) (imm : BitVec 16) :
    rsOf (encodeI op rs rt imm) = rs ∧ rtOf (encodeI op rs rt imm) = rt ∧ immOf (encodeI op rs rt imm) = imm := by
  have := rs.isLt; have := rt.isLt; have := imm.isLt
  simp only [rsOf, rtOf, immOf, bits, encodeI, BitVec.toNat_ofNat, Fin.ext_iff, Fin.val_ofNat,
    BitVec.toNat_eq]
  omega

theorem encodeJ_target (op : Nat) (target : BitVec 26) : targetOf (encodeJ op target) = target := by
  have := target.isLt
  simp only [targetOf, bits, encodeJ, BitVec.toNat_ofNat, BitVec.toNat_eq]
  omega

/-- The canonical word of a well-formed instruction has its row and its operands (R88). -/
theorem matches_encode {i : Instr} (hwf : i.wf = true) : Matches (encode i) i := by
  cases i with
  | sll rd rt shamt | srl rd rt shamt =>
    have hshamt : shamt % 32 = shamt := Nat.mod_eq_of_lt (by simpa [Instr.wf] using hwf)
    simp [Matches, encode, Laws.encodeR_fields, encodeR_operands, hshamt]
  | add | and | div | mult | jr | mfhi | mflo | sllv | slt | sub | rte | push | pop =>
    simp [Matches, encode, Laws.encodeR_fields, encodeR_operands]
  | addi | beq | bne | ble | bgt | lb | lh | lui | lw | sb | slti | sw =>
    simp [Matches, encode, Laws.encodeI_opcode, encodeI_operands]
  | j | jal => simp [Matches, encode, Laws.encodeJ_opcode, encodeJ_target]

theorem decodeWord_encode {i : Instr} (hwf : i.wf = true) : decodeWord (encode i) = .ok i :=
  decodeWord_of_matches (matches_encode hwf)

/-- The four bytes of a word join to it again, in the byte order they were laid out in (20_memory.md R54, R55). -/
theorem ofNat_joinBytes_splitBytes (o : ByteOrder) (w : Word) :
    BitVec.ofNat 32 (joinBytes o (splitBytes o 4 w.toNat)) = w := by
  rw [joinBytes_splitBytes, show (256 : Nat) ^ 4 = 2 ^ 32 by decide, Nat.mod_eq_of_lt w.isLt, BitVec.ofNat_toNat,
    BitVec.setWidth_eq]

/-- Decoding a word laid out as bytes is decoding the word, and the bytes after it are left over (30_encoding.md R80). -/
theorem decodeBytes_splitBytes {w : Word} {i : Instr} (hw : decodeWord w = .ok i) (o : ByteOrder) (rest : List Byte) :
    decodeBytes o (splitBytes o 4 w.toNat ++ rest) = .ok (i, rest) := by
  have hjoin := ofNat_joinBytes_splitBytes o w
  match hbytes : splitBytes o 4 w.toNat, splitBytes_length o 4 w.toNat with
  | [b0, b1, b2, b3], _ =>
    rw [hbytes] at hjoin
    simp [decodeBytes, hjoin, hw]

/-- Settles O1: the encoded word has the instruction's row and operands, and its bytes join to it. -/
theorem decodeOfEncodeIsIdentity : Obligations.DecodeOfEncodeIsIdentity :=
  fun _ hwf => ⟨decodeWord_encode hwf, decodeBytes_splitBytes (decodeWord_encode hwf)⟩

end Sys2Proof.Proofs

/-! The overflow flag and the instructions that test it, `add`, `sub` and `addi` (40_alu.md R112 to R114, R117), and the
comparisons `slt`, `slti` (R116, R118). -/

namespace Sys2Proof.Proofs

open Sys2Proof.Machine Sys2Proof.Claims

/-- The bound of R112 and the statement's are the two ways to say that 32 bits hold the value. -/
theorem outOfRange_eq_false_iff {x : Int} : outOfRange x = false ↔ Fits x := by
  simp only [outOfRange, Fits, decide_eq_false_iff_not]
  omega

theorem outOfRange_eq_true_iff {x : Int} : outOfRange x = true ↔ ¬Fits x := by
  rw [← outOfRange_eq_false_iff, Bool.not_eq_false]

theorem flagOAdd_eq_saddOverflow (a b : Word) : flagOAdd a b = a.saddOverflow b := by
  simp only [flagOAdd, outOfRange, BitVec.saddOverflow, ← Bool.decide_or, decide_eq_decide]
  omega

theorem flagOSub_eq_ssubOverflow (a b : Word) : flagOSub a b = a.ssubOverflow b := by
  simp only [flagOSub, outOfRange, BitVec.ssubOverflow, ← Bool.decide_or, decide_eq_decide]
  omega

/-- Settles O59: the exact test of R112 is the library's signed overflow, which is a test on bits 31. -/
theorem overflowFlagIsSignBitTest : Obligations.OverflowFlagIsSignBitTest := by
  intro a b
  constructor
  · simp [aluFlags, flagOAdd_eq_saddOverflow, BitVec.saddOverflow_eq]
  · simp only [aluFlags, Option.some.injEq, flagOSub_eq_ssubOverflow, BitVec.ssubOverflow_eq]
    cases a.msb <;> cases b.msb <;> simp

theorem exec_add (rd rs rt : Reg) (s : State) : exec (.add rd rs rt) s =
    s.finishOrOverflow (outOfRange ((s.readReg rs).toInt + (s.readReg rt).toInt)) rd
      (s.readReg rs + s.readReg rt) := by
  rw [← sumWord_eq]
  rfl

theorem exec_sub (rd rs rt : Reg) (s : State) : exec (.sub rd rs rt) s =
    s.finishOrOverflow (outOfRange ((s.readReg rs).toInt - (s.readReg rt).toInt)) rd
      (s.readReg rs - s.readReg rt) := by
  rw [← diffWord_eq]
  rfl

theorem exec_addi (rt rs : Reg) (imm : BitVec 16) (s : State) : exec (.addi rt rs imm) s =
    s.finishOrOverflow (outOfRange ((s.readReg rs).toInt + imm.toInt)) rt
      (s.readReg rs + imm.signExtend 32) := by
  rw [← immWord_toInt, ← sumWord_eq]
  rfl

/-- `add`, `sub` and `addi` have one shape: the value where the exact result fits, else the entry for Overflow with its
whole frame (R112, R113; D7, D8). -/
theorem writesReg_or_enters_of_exec {i : Instr} {s : State} {x : Int} {dest : Reg} {v : Word}
    (hexec : exec i s = s.finishOrOverflow (outOfRange x) dest v) :
    (Fits x → ∃ t, exec i s = .next t ∧ WritesReg s t dest v) ∧
    (¬Fits x → VectorReady s 254 → ∃ t, exec i s = .next t ∧ Enters s t 254 ∧ SameHiLo s t) := by
  rcases finishOrOverflow_cases s (outOfRange x) dest v with ⟨ho, he⟩ | ⟨ho, he⟩ <;> rw [hexec, he]
  · have hfits := outOfRange_eq_false_iff.mp ho
    exact ⟨fun _ => ⟨_, rfl, writesReg_writeReg_advance s dest v⟩, fun h => absurd hfits h⟩
  · refine ⟨fun h => absurd h (outOfRange_eq_true_iff.mp ho), fun _ hready => ?_⟩
    obtain ⟨t, ht, henters, hhilo, -⟩ := raise_enters (e := .overflow) hready
    exact ⟨t, ht, henters, hhilo⟩

/-- Settles O5: the wrapping sum is the exact one where it fits. -/
theorem addWritesSumOrRaisesOverflow : Obligations.AddWritesSumOrRaisesOverflow :=
  fun rd rs rt s => writesReg_or_enters_of_exec (exec_add rd rs rt s)

/-- Settles O6: as O5, with the exact difference. -/
theorem subWritesDifferenceOrRaisesOverflow : Obligations.SubWritesDifferenceOrRaisesOverflow :=
  fun rd rs rt s => writesReg_or_enters_of_exec (exec_sub rd rs rt s)

/-- Settles O9: the sign-extended immediate has the immediate's signed value, so the exact sum is the statement's. -/
theorem addiWritesSumOrRaisesOverflow : Obligations.AddiWritesSumOrRaisesOverflow :=
  fun rt rs imm s => writesReg_or_enters_of_exec (exec_addi rt rs imm s)

theorem boolWord_flagLt (a b : Word) : boolWord (flagLt a b) = if a.toInt < b.toInt then 1 else 0 := by
  simp [boolWord, flagLt]

theorem exec_slt (rd rs rt : Reg) (s : State) : exec (.slt rd rs rt) s =
    s.finish rd (if (s.readReg rs).toInt < (s.readReg rt).toInt then 1 else 0) := by
  rw [← boolWord_flagLt]
  rfl

theorem exec_slti (rt rs : Reg) (imm : BitVec 16) (s : State) : exec (.slti rt rs imm) s =
    s.finish rt (if (s.readReg rs).toInt < imm.toInt then 1 else 0) := by
  rw [← immWord_toInt, ← boolWord_flagLt]
  rfl

/-- Settles O8: the meaning ends in `finish` with flag LT as a word. -/
theorem sltWritesSignedLessThan : Obligations.SltWritesSignedLessThan :=
  fun rd rs rt s => writesReg_of_exec_eq_finish (exec_slt rd rs rt s)

/-- Settles O10: as O8, with the immediate's signed value. -/
theorem sltiWritesSignedLessThan : Obligations.SltiWritesSignedLessThan :=
  fun rt rs imm s => writesReg_of_exec_eq_finish (exec_slti rt rs imm s)

end Sys2Proof.Proofs

/-! `sllv` (42_shift.md R143), the branches (43_control.md R150 to R154) and `jal` (R156). -/

namespace Sys2Proof.Proofs

open Sys2Proof.Machine Sys2Proof.Claims

/-- The amount of R143 by value is the low five bits of the register (D18). -/
theorem shiftAmount_eq_low_bits (v : Word) : shiftAmount v = (v.extractLsb' 0 5).toNat := by
  simp [shiftAmount]

theorem exec_sllv (rd rs rt : Reg) (s : State) : exec (.sllv rd rs rt) s =
    s.finish rd (s.readReg rs <<< ((s.readReg rt).extractLsb' 0 5).toNat) := by
  rw [← shiftAmount_eq_low_bits, ← shiftLeft_eq]
  rfl

/-- Settles O18: the meaning ends in `finish` with rs shifted by the low five bits of rt. -/
theorem sllvShiftsRsByLowBitsOfRt : Obligations.SllvShiftsRsByLowBitsOfRt :=
  fun rd rs rt s => writesReg_of_exec_eq_finish (exec_sllv rd rs rt s)

/-- A branch is a jump to the address R150 gives, when its flag says what the statement's condition says. -/
theorem branch_eq_branchPc (s : State) {flag : Bool} {taken : Prop} [Decidable taken] (hflag : flag = decide taken)
    (imm : BitVec 16) : s.branch flag imm = .next (s.jumpTo (branchPc s taken imm)) := by
  subst hflag
  rw [branch_eq, branchPc]
  by_cases htaken : taken <;> simp [htaken, State.branchTarget, immWord, sext]

theorem exec_beq (rs rt : Reg) (imm : BitVec 16) (s : State) : exec (.beq rs rt imm) s =
    .next (s.jumpTo (branchPc s (s.readReg rs = s.readReg rt) imm)) :=
  branch_eq_branchPc s rfl imm

theorem exec_bne (rs rt : Reg) (imm : BitVec 16) (s : State) : exec (.bne rs rt imm) s =
    .next (s.jumpTo (branchPc s (s.readReg rs ≠ s.readReg rt) imm)) :=
  branch_eq_branchPc s (decide_not).symm imm

theorem exec_ble (rs rt : Reg) (imm : BitVec 16) (s : State) : exec (.ble rs rt imm) s =
    .next (s.jumpTo (branchPc s ((s.readReg rs).toInt ≤ (s.readReg rt).toInt) imm)) :=
  branch_eq_branchPc s (by simp [flagGt, ← decide_not]) imm

theorem exec_bgt (rs rt : Reg) (imm : BitVec 16) (s : State) : exec (.bgt rs rt imm) s =
    .next (s.jumpTo (branchPc s ((s.readReg rs).toInt > (s.readReg rt).toInt) imm)) :=
  branch_eq_branchPc s rfl imm

/-- Settles O19: flag EG is the equality, and a branch is a jump. -/
theorem beqBranchesWhenEqual : Obligations.BeqBranchesWhenEqual :=
  fun rs rt imm s => ⟨_, exec_beq rs rt imm s, movesPc_jumpTo s _⟩

/-- Settles O20: different is the negation of flag EG. -/
theorem bneBranchesWhenDifferent : Obligations.BneBranchesWhenDifferent :=
  fun rs rt imm s => ⟨_, exec_bne rs rt imm s, movesPc_jumpTo s _⟩

/-- Settles O21: at most is the negation of flag GT. -/
theorem bleBranchesWhenSignedLessOrEqual : Obligations.BleBranchesWhenSignedLessOrEqual :=
  fun rs rt imm s => ⟨_, exec_ble rs rt imm s, movesPc_jumpTo s _⟩

/-- Settles O22: greater is flag GT. -/
theorem bgtBranchesWhenSignedGreater : Obligations.BgtBranchesWhenSignedGreater :=
  fun rs rt imm s => ⟨_, exec_bgt rs rt imm s, movesPc_jumpTo s _⟩

theorem exec_jal (target : BitVec 26) (s : State) : exec (.jal target) s =
    .next ((s.writeReg linkReg (s.pc + 4)).jumpTo (jumpPc s target)) := by
  rw [← jumpTarget_eq_jumpPc]
  rfl

/-- Settles O24: the link is one register write, and the jump that follows moves pc alone. -/
theorem jalLinksAndJumps : Obligations.JalLinksAndJumps :=
  fun target s => ⟨_, exec_jal target s, regsAfter_writeReg s 31 _, rfl, ⟨rfl, rfl, rfl⟩, rfl, fun _ => rfl, rfl⟩

end Sys2Proof.Proofs

/-! `div` (41_muldiv.md R132). Quotient and remainder are those of signed division toward zero, and 32 bits hold both
unless -2^31 is divided by -1. -/

namespace Sys2Proof.Proofs

open Sys2Proof.Machine Sys2Proof.Claims

theorem toInt_eq_zero_iff {v : Word} : v.toInt = 0 ↔ v = 0 := by
  rw [← BitVec.toInt_inj, BitVec.ofNat_eq_ofNat, BitVec.toInt_zero]

theorem exec_div_zero {rt : Reg} {s : State} (hzero : s.readReg rt = 0) (rs : Reg) :
    exec (.div rs rt) s = raise .divideByZero s.drawHiLo :=
  if_pos (toInt_eq_zero_iff.mpr hzero)

theorem exec_div_overflow {rs rt : Reg} {s : State} (hrs : (s.readReg rs).toInt = -2 ^ 31)
    (hrt : (s.readReg rt).toInt = -1) : exec (.div rs rt) s = .next s.drawHiLo.advance := by
  simp [exec, execDiv, hrs, hrt]

/-- Only the quotient of -2^31 by -1 does not fit 32 bits. -/
theorem toInt_sdiv_of_regular {a b : Word} (hover : ¬(a.toInt = -2 ^ 31 ∧ b.toInt = -1)) :
    (a.sdiv b).toInt = a.toInt.tdiv b.toInt := by
  refine BitVec.toInt_sdiv_of_ne_or_ne a b ?_
  by_contra! hmin
  obtain ⟨rfl, rfl⟩ := hmin
  exact hover (by decide)

/-- Where 32 bits hold the results, `div` sets HI and LO to the signed remainder and quotient of the words. -/
theorem exec_div_of_regular {rs rt : Reg} {s : State} (hzero : s.readReg rt ≠ 0)
    (hover : ¬((s.readReg rs).toInt = -2 ^ 31 ∧ (s.readReg rt).toInt = -1)) :
    exec (.div rs rt) s =
      .next (s.setHiLo ((s.readReg rs).srem (s.readReg rt)) ((s.readReg rs).sdiv (s.readReg rt))).advance := by
  simp only [exec, execDiv]
  rw [if_neg (toInt_eq_zero_iff.not.mpr hzero), if_neg hover, ← BitVec.toInt_srem,
    ← toInt_sdiv_of_regular hover, BitVec.ofInt_toInt, BitVec.ofInt_toInt]

/-- The remainder is smaller than the divisor, and zero or of the dividend's sign (D14). -/
theorem srem_bound_and_sign {a b : Word} (hb : b ≠ 0) :
    (a.srem b).toInt.natAbs < b.toInt.natAbs ∧
    ((a.srem b).toInt = 0 ∨ (a.srem b).toInt.sign = a.toInt.sign) := by
  rw [BitVec.toInt_srem]
  constructor
  · rw [Int.natAbs_tmod]
    exact Nat.mod_lt _ (Int.natAbs_pos.mpr (toInt_eq_zero_iff.not.mpr hb))
  · by_cases hdvd : b.toInt ∣ a.toInt
    · exact .inl (Int.tmod_eq_zero_of_dvd hdvd)
    · exact .inr (by rw [Int.sign_tmod, if_neg hdvd])

/-- Settles O13: the pair is that of division toward zero, whose identity is the library's. -/
theorem divWritesQuotientAndRemainder : Obligations.DivWritesQuotientAndRemainder := by
  intro rs rt s hzero hover
  obtain ⟨hbound, hsign⟩ := srem_bound_and_sign (a := s.readReg rs) hzero
  refine ⟨_, exec_div_of_regular hzero hover, ?_, hbound, hsign, setHiLo_advance_frame s _ _⟩
  rw [advance_hi, advance_lo, setHiLo_hi, setHiLo_lo, toInt_sdiv_of_regular hover, BitVec.toInt_srem,
    Int.tdiv_mul_add_tmod]

/-- Settles O14: a draw of free values changes only HI and LO, and the entry is taken from the state it leaves. -/
theorem divOpenResultsRaiseOrGoOn : Obligations.DivOpenResultsRaiseOrGoOn := by
  refine fun rs rt s => ⟨fun hzero hready => ?_, fun hrs hrt => ?_⟩
  · obtain ⟨t, ht, henters, -⟩ := raise_enters (e := .divideByZero) (s := s.drawHiLo) hready
    exact ⟨t, (exec_div_zero hzero rs).trans ht, henters⟩
  · exact ⟨_, exec_div_overflow hrs hrt, rfl, fun _ => rfl, rfl, fun _ => rfl, rfl⟩

end Sys2Proof.Proofs

/-! Reads after a write (20_memory.md R54 to R56). A write that is admitted leaves each byte of its access holding the byte
the value splits into; every read of stored bytes follows. -/

namespace Sys2Proof.Proofs

open Sys2Proof.Machine Sys2Proof.Claims

/-- Both ways to list the bytes of an access name the same addresses. -/
theorem mem_accessAddrs_iff {addr : Word} {n a : Nat} : a ∈ accessAddrs addr n ↔ ∃ k < n, a = byteAddr addr k :=
  mem_accessAddrs

theorem backed_iff {s : State} {addr : Word} {n : Nat} :
    Backed s addr n ↔ ∀ a ∈ accessAddrs addr n, a < s.params.memSize := by
  simp only [mem_accessAddrs_iff]
  constructor
  · rintro hbacked _ ⟨k, hk, rfl⟩
    exact hbacked k hk
  · exact fun hbacked k hk => hbacked _ ⟨k, hk, rfl⟩

theorem byteAddr_zero (addr : Word) : byteAddr addr 0 = addr.toNat :=
  Nat.mod_eq_of_lt addr.isLt

/-- The `k`-th byte from `j` bytes further up is the `j + k`-th, the wrap included (R54). -/
theorem byteAddr_add (addr : Word) (j k : Nat) : byteAddr (addr + BitVec.ofNat 32 j) k = byteAddr addr (j + k) := by
  simp only [byteAddr, BitVec.toNat_add, BitVec.toNat_ofNat]
  omega

/-- A write to backed bytes is admitted (R52). -/
theorem memWrite_of_backed {s : State} {addr : Word} {n : Nat} (hbacked : Backed s addr n) (v : Nat) :
    ∃ u, s.memWrite addr n v = .ok u :=
  ⟨_, memWrite_ok_iff.mpr ⟨backed_iff.mp hbacked, rfl⟩⟩

theorem backed_of_memWrite {s u : State} {addr : Word} {n v : Nat} (hw : s.memWrite addr n v = .ok u) :
    Backed s addr n :=
  backed_iff.mpr (memWrite_ok_iff.mp hw).1

/-- After a write each byte of the access holds its byte of the value (R55). -/
theorem holds_of_memWrite {s u : State} {addr : Word} {n v : Nat} (hw : s.memWrite addr n v = .ok u)
    (hn : n ≤ 2 ^ 32) {k : Nat} (hk : k < (splitBytes s.params.byteOrder n v).length) :
    Holds u addr k (splitBytes s.params.byteOrder n v)[k] := by
  have hbacked := backed_of_memWrite hw
  obtain ⟨-, rfl⟩ := memWrite_ok_iff.mp hw
  have hread := memory_readAll_ok_iff.mp
    (memory_readAll_writeAll s.mem (accessAddrs_nodup addr hn) (bs := splitBytes s.params.byteOrder n v) (by simp))
  have hkn : k < n := by simpa using hk
  refine ⟨hbacked k hkn, ?_⟩
  have hbyte := List.getElem_of_eq hread (i := k) (by simpa using hkn)
  rwa [List.getElem_map, List.getElem_map, accessAddrs_getElem] at hbyte

/-- A read within the bytes just written gives the value of those of them it touches (R54, R55). -/
theorem memRead_within_memWrite {s u : State} {addr : Word} {n v : Nat} (hw : s.memWrite addr n v = .ok u)
    (hn : n ≤ 2 ^ 32) {j m : Nat} (hjm : j + m ≤ n) :
    u.memRead (addr + BitVec.ofNat 32 j) m =
      .ok (joinBytes s.params.byteOrder (((splitBytes s.params.byteOrder n v).drop j).take m)) := by
  have hlen : (((splitBytes s.params.byteOrder n v).drop j).take m).length = m := by simp; omega
  have hparams : u.params = s.params := (memWrite_frame hw).1
  have hread := memRead_of_holds (s := u) (ea := addr + BitVec.ofNat 32 j)
    (bs := ((splitBytes s.params.byteOrder n v).drop j).take m) fun k hk => by
      rw [List.getElem_take, List.getElem_drop, Holds, byteAddr_add]
      exact holds_of_memWrite hw hn (by simp; omega)
  rwa [hlen, hparams] at hread

/-- Reading back the whole access gives the value, as far as the bytes can hold it. -/
theorem memRead_memWrite_same {s u : State} {addr : Word} {n v : Nat} (hw : s.memWrite addr n v = .ok u)
    (hn : n ≤ 2 ^ 32) : u.memRead addr n = .ok (v % 256 ^ n) := by
  have hread := memRead_within_memWrite hw hn (j := 0) (m := n) (by omega)
  rwa [BitVec.add_zero, List.drop_zero, List.take_of_length_le (by simp), joinBytes_splitBytes] at hread

/-- Settles O55: the value fits its bytes, so nothing is lost. -/
theorem readAfterWriteReturnsValue : Obligations.ReadAfterWriteReturnsValue := by
  intro s t addr n v hn hv hw
  have hfits : v < 256 ^ n := by rwa [show (256 : Nat) = 2 ^ 8 by decide, ← pow_mul]
  rw [memRead_memWrite_same hw (by omega), Nat.mod_eq_of_lt hfits]

/-- Settles O56: each of the twelve reads lies within the word, and the bytes it takes are listed by the byte order. -/
theorem mixedWidthReadsFollowByteOrder : Obligations.MixedWidthReadsFollowByteOrder := by
  intro s t a hw
  have hread : ∀ j m, j + m ≤ 4 → t.memRead (a + BitVec.ofNat 32 j) m = _ :=
    fun j m hjm => memRead_within_memWrite hw (by decide) hjm
  have hread0 := fun m => hread 0 m
  rw [BitVec.add_zero] at hread0
  constructor <;> intro horder <;> rw [horder] at hread hread0
  · exact ⟨hread0 1 (by decide), hread 1 1 (by decide), hread 2 1 (by decide), hread 3 1 (by decide),
      hread0 2 (by decide), hread 2 2 (by decide)⟩
  · exact ⟨hread0 1 (by decide), hread 1 1 (by decide), hread 2 1 (by decide), hread 3 1 (by decide),
      hread0 2 (by decide), hread 2 2 (by decide)⟩

theorem memRead_memWrite_word {s u : State} {addr w : Word} (hw : s.memWrite addr 4 w.toNat = .ok u) :
    u.memRead addr 4 = .ok w.toNat := by
  rw [memRead_memWrite_same hw (by decide), show (256 : Nat) ^ 4 = 2 ^ 32 by decide, Nat.mod_eq_of_lt w.isLt]

/-- A fetch gives the word last written at pc, whatever its alignment (R65; D4, D24). -/
theorem fetch_of_memWrite {s u t : State} {w : Word} (hw : s.memWrite t.pc 4 w.toNat = .ok u)
    (hparams : t.params = u.params) (hmem : t.mem = u.mem) : t.fetch = .ok w := by
  have hread : t.memRead t.pc 4 = .ok w.toNat := by
    rw [memRead_congr hparams hmem, memRead_memWrite_word hw]
  simp [State.fetch, hread]

end Sys2Proof.Proofs

/-! Loads and stores (44_loadstore.md). A load whose bytes hold values is one register write; a store to backed bytes changes
memory alone, and of memory its access alone. -/

namespace Sys2Proof.Proofs

open Sys2Proof.Machine Sys2Proof.Claims

theorem exec_lb (rt rs : Reg) (imm : BitVec 16) (s : State) :
    exec (.lb rt rs imm) s = s.load (ea s rs imm) 1 widenByte rt := rfl

theorem exec_lh (rt rs : Reg) (imm : BitVec 16) (s : State) :
    exec (.lh rt rs imm) s = s.load (ea s rs imm) 2 widenHalf rt := rfl

theorem exec_lw (rt rs : Reg) (imm : BitVec 16) (s : State) :
    exec (.lw rt rs imm) s = s.load (ea s rs imm) 4 widenWord rt := rfl

theorem exec_sb (rt rs : Reg) (imm : BitVec 16) (s : State) :
    exec (.sb rt rs imm) s = s.store (ea s rs imm) 1 (s.readReg rt).toNat := rfl

theorem exec_sw (rt rs : Reg) (imm : BitVec 16) (s : State) :
    exec (.sw rt rs imm) s = s.store (ea s rs imm) 4 (s.readReg rt).toNat := rfl

/-- A load whose read answers is a register write of the widened value. -/
theorem load_of_memRead {s : State} {addr : Word} {n v : Nat} (hread : s.memRead addr n = .ok v)
    (widen : Nat → Word) (dest : Reg) : s.load addr n widen dest = s.finish dest (widen v) := by
  simp only [State.load, hread]

theorem widenByte_joinBytes (o : ByteOrder) (b : Byte) : widenByte (joinBytes o [b]) = b.signExtend 32 := by
  rw [joinBytes_singleton, widenByte, BitVec.ofNat_toNat, BitVec.setWidth_eq, sext]

theorem widenHalf_joinBytes (o : ByteOrder) (b0 b1 : Byte) :
    widenHalf (joinBytes o [b0, b1]) = (half o b0 b1).signExtend 32 := by
  have hjoin : joinBytes o [b0, b1] = (half o b0 b1).toNat := by
    cases o <;> simp [joinBytes, joinLittle, half, toNat_append_byte]
  rw [hjoin, widenHalf, BitVec.ofNat_toNat, BitVec.setWidth_eq, sext]

/-- Settles O26: one byte is its own value in either byte order. -/
theorem lbLoadsSignExtendedByte : Obligations.LbLoadsSignExtendedByte := by
  intro rt rs imm s b h0
  have hread := memRead_of_holds (s := s) (bs := [b]) fun
    | 0, _ => h0
  rw [← widenByte_joinBytes s.params.byteOrder]
  exact writesReg_of_exec_eq_finish ((exec_lb rt rs imm s).trans (load_of_memRead hread _ _))

/-- Settles O27: the two bytes join to the halfword the byte order makes of them. -/
theorem lhLoadsSignExtendedHalfword : Obligations.LhLoadsSignExtendedHalfword := by
  intro rt rs imm s b0 b1 h0 h1
  have hread := memRead_of_holds (s := s) (bs := [b0, b1]) fun
    | 0, _ => h0
    | 1, _ => h1
  rw [← widenHalf_joinBytes]
  exact writesReg_of_exec_eq_finish ((exec_lh rt rs imm s).trans (load_of_memRead hread _ _))

/-- Settles O28: the four bytes join to the word the byte order makes of them. -/
theorem lwLoadsWord : Obligations.LwLoadsWord := by
  intro rt rs imm s b0 b1 b2 b3 h0 h1 h2 h3
  rw [← widenWord_joinBytes]
  exact writesReg_of_exec_eq_finish
    ((exec_lw rt rs imm s).trans (load_of_memRead (memRead_four_of_holds h0 h1 h2 h3) _ _))

/-- A store to backed bytes is the write and the advance of pc. -/
theorem store_of_backed {s : State} {addr : Word} {n : Nat} (hbacked : Backed s addr n) (v : Nat) :
    ∃ u, s.memWrite addr n v = .ok u ∧ s.store addr n v = .next u.advance := by
  obtain ⟨u, hw⟩ := memWrite_of_backed hbacked v
  exact ⟨u, hw, by simp only [State.store, hw]⟩

theorem sameRegs_of_memWrite {s u : State} {addr : Word} {n v : Nat} (hw : s.memWrite addr n v = .ok u) :
    SameRegs s u := by
  obtain ⟨hparams, hregs, -⟩ := memWrite_frame hw
  exact readReg_congr hparams hregs

theorem sameHiLo_of_memWrite {s u : State} {addr : Word} {n v : Nat} (hw : s.memWrite addr n v = .ok u) :
    SameHiLo s u := by
  obtain ⟨-, -, -, hhi, hlo, -, hdraws, -⟩ := memWrite_frame hw
  exact ⟨hhi, hlo, hdraws⟩

/-- What a store changes beside memory: pc, and nothing else. -/
theorem memWrite_advance_frame {s u : State} {addr : Word} {n v : Nat} (hw : s.memWrite addr n v = .ok u) :
    u.advance.pc = s.pc + 4 ∧ SameRegs s u.advance ∧ SameHiLo s u.advance ∧ u.advance.epc = s.epc ∧
    u.advance.params = s.params := by
  obtain ⟨hparams, -, hpc, -, -, hepc, -⟩ := memWrite_frame hw
  have hreads := sameRegs_of_memWrite hw
  have hhilo := sameHiLo_of_memWrite hw
  exact ⟨by rw [advance_pc, hpc], hreads, hhilo, hepc, hparams⟩

/-- A one-byte write changes the byte at its address alone, to the low byte of the value (R55). -/
theorem read_memWrite_one {s u : State} {addr v : Word} (hw : s.memWrite addr 1 v.toNat = .ok u) (a : Nat) :
    u.mem.read a = if a = addr.toNat then some (v.setWidth 8) else s.mem.read a := by
  obtain ⟨-, rfl⟩ := memWrite_ok_iff.mp hw
  rw [accessAddrs_one, splitBytes_one, BitVec.ofNat_toNat]
  exact memory_read_write s.mem addr.toNat a _

/-- Settles O29: the store is one byte written. -/
theorem sbStoresLowByte : Obligations.SbStoresLowByte := by
  intro rt rs imm s hbacked
  obtain ⟨u, hw, hstore⟩ := store_of_backed hbacked (s.readReg rt).toNat
  have hbyte := read_memWrite_one hw
  exact ⟨_, (exec_sb rt rs imm s).trans hstore, hbyte, memWrite_advance_frame hw⟩

theorem getElem_splitLittle {n v k : Nat} (hk : k < (splitLittle n v).length) :
    (splitLittle n v)[k] = BitVec.ofNat 8 (v / 256 ^ k) := by
  induction n generalizing v k with
  | zero => exact absurd hk (by simp [splitLittle])
  | succ n ih =>
    cases k with
    | zero => simp [splitLittle]
    | succ k => simp only [splitLittle, List.getElem_cons_succ, ih, Nat.div_div_eq_div_mul, pow_succ']

/-- Byte `k` of a word by value, its base-256 digit, is the bits R55 gives. -/
theorem ofNat_div_eq_extractLsb' (v : Word) (k : Nat) :
    BitVec.ofNat 8 (v.toNat / 256 ^ k) = v.extractLsb' (8 * k) 8 := by
  apply BitVec.eq_of_toNat_eq
  rw [BitVec.toNat_ofNat, BitVec.extractLsb'_toNat, Nat.shiftRight_eq_div_pow, pow_mul,
    show (2 : Nat) ^ 8 = 256 by decide]

/-- The bytes a word splits into are those R55 lists for the byte order. -/
theorem getElem_splitBytes_word {o : ByteOrder} {v : Word} {k : Nat} (hk : k < (splitBytes o 4 v.toNat).length) :
    (splitBytes o 4 v.toNat)[k] = byteOf o v k := by
  cases o with
  | little => simp only [splitBytes, getElem_splitLittle, ofNat_div_eq_extractLsb', byteOf]
  | big =>
    simp only [splitBytes, List.getElem_reverse, splitLittle_length, getElem_splitLittle, ofNat_div_eq_extractLsb',
      byteOf]

/-- A four-byte write stores the word and nothing else. -/
theorem storesWord_of_memWrite {s u : State} {addr v : Word} (hw : s.memWrite addr 4 v.toNat = .ok u) :
    StoresWord s u addr v := by
  obtain ⟨-, -, -, -, -, -, -, hother⟩ := memWrite_frame hw
  refine ⟨fun k hk => ?_, fun a ha => hother a fun hmem => ?_⟩
  · have hkl : k < (splitBytes s.params.byteOrder 4 v.toNat).length := by simpa using hk
    obtain ⟨-, hbyte⟩ := holds_of_memWrite hw (by decide) hkl
    rw [hbyte, getElem_splitBytes_word]
  · obtain ⟨k, hk, rfl⟩ := mem_accessAddrs_iff.mp hmem
    exact ha k hk rfl

/-- Settles O30: the store is one word written. -/
theorem swStoresWord : Obligations.SwStoresWord := by
  intro rt rs imm s hbacked
  obtain ⟨u, hw, hstore⟩ := store_of_backed hbacked (s.readReg rt).toNat
  have hword := storesWord_of_memWrite hw
  exact ⟨_, (exec_sw rt rs imm s).trans hstore, hword, memWrite_advance_frame hw⟩

/-- Settles O57: the state `sw` answers has the memory of its write, which the fetch reads back. -/
theorem storedWordIsFetched : Obligations.StoredWordIsFetched := by
  intro rt rs imm s t ht
  rw [exec_sw] at ht
  rcases store_cases s (ea s rs imm) 4 (s.readReg rt).toNat with ⟨u, hw, he⟩ | ⟨f, -, he⟩ <;> rw [he] at ht <;> cases ht
  exact fetch_of_memWrite (t := u.advance.jumpTo (ea s rs imm)) hw rfl rfl

end Sys2Proof.Proofs

/-! The stack (45_stack.md). A push of a word and a pop of a word are described once; `push`, `pop` and the two forms that
STACK_SELF_OPERAND governs are uses of them. -/

namespace Sys2Proof.Proofs

open Sys2Proof.Machine Sys2Proof.Claims

theorem decodeFunct_push {w : Word} (hfn : functOf w = 0x05) : decodeFunct w = .ok (.push (rtOf w)) := by
  simp [decodeFunct, hfn]

/-- Only `push $29` consults STACK_SELF_OPERAND (45_stack.md R192). -/
theorem exec_push_of_ne {rt : Reg} (hrt : rt ≠ 29) (s : State) : exec (.push rt) s = s.pushWord (s.readReg rt) :=
  if_neg hrt

theorem exec_push_self_refuse {s : State} (hself : s.params.stackSelf = .refuse) :
    exec (.push 29) s = .refused .stackSelfOperand := by
  simp [exec, execPush, spReg, hself]

theorem exec_pop_self_refuse {s : State} (hself : s.params.stackSelf = .refuse) :
    exec (.pop 29) s = .refused .stackSelfOperand := by
  simp [exec, execPop, spReg, hself]

theorem exec_push_self_run {s : State} {p : PushSelf} {q : PopSelf} (hself : s.params.stackSelf = .run p q) :
    exec (.push 29) s = s.pushWord (if p = .oldSp then s.readReg 29 else s.readReg 29 - 4) := by
  cases p <;> simp [exec, execPush, spReg, hself, State.pushAddr]

theorem exec_pop_self_loaded {s : State} {p : PushSelf} (hself : s.params.stackSelf = .run p .loaded) :
    exec (.pop 29) s = s.popSelfLoaded := by
  simp [exec, execPop, spReg, hself]

theorem exec_pop_self_incremented {s : State} {p : PushSelf} (hself : s.params.stackSelf = .run p .incremented) :
    exec (.pop 29) s = s.popWord 29 := by
  simp [exec, execPop, spReg, hself]

/-- A register write after a change that leaves registers and parameters alone is the only change of a register. -/
theorem regsAfter_of_sameRegs {s u t : State} {dest : Reg} {v : Word} (hregs : SameRegs s u)
    (hparams : u.params = s.params) (hafter : RegsAfter u t dest v) : RegsAfter s t dest v := by
  intro r
  rw [hafter r, hregs r, hparams]

/-- A push that answers a state wrote the word at the new SP, and then register 29 and pc. -/
theorem pushWord_next {s t : State} {v : Word} (h : s.pushWord v = .next t) :
    ∃ u, s.memWrite (s.readReg 29 - 4) 4 v.toNat = .ok u ∧ t = (u.writeReg 29 (s.readReg 29 - 4)).advance := by
  rcases pushWord_cases s v with ⟨u, hw, he⟩ | ⟨f, -, he⟩ <;> rw [he] at h <;> cases h
  exact ⟨u, hw, rfl⟩

/-- What a push changes: register 29, the word at the new SP, and pc (R190). -/
theorem pushWord_changes {s t : State} {v : Word} (h : s.pushWord v = .next t) :
    RegsAfter s t 29 (s.readReg 29 - 4) ∧ StoresWord s t (s.readReg 29 - 4) v ∧
    t.pc = s.pc + 4 ∧ SameHiLo s t ∧ t.epc = s.epc ∧ t.params = s.params := by
  obtain ⟨u, hw, rfl⟩ := pushWord_next h
  obtain ⟨hparams, -, hpc, -, -, hepc, -⟩ := memWrite_frame hw
  have hword := storesWord_of_memWrite hw
  have hhilo := sameHiLo_of_memWrite hw
  have hafter := regsAfter_of_sameRegs (sameRegs_of_memWrite hw) hparams
    (regsAfter_writeReg u 29 (s.readReg 29 - 4))
  exact ⟨hafter, hword, by rw [advance_pc, writeReg_pc, hpc], hhilo, hepc, hparams⟩

/-- The pushed word is what a read at the new SP gives. -/
theorem memRead_of_pushWord {s t : State} {v : Word} (h : s.pushWord v = .next t) :
    t.memRead (s.readReg 29 - 4) 4 = .ok v.toNat := by
  obtain ⟨u, hw, rfl⟩ := pushWord_next h
  exact (memRead_congr (s := u) rfl rfl _ 4).trans (memRead_memWrite_word hw)

theorem pushWord_of_backed {s : State} (hbacked : Backed s (s.readReg 29 - 4) 4) (v : Word) :
    ∃ t, s.pushWord v = .next t ∧ RegsAfter s t 29 (s.readReg 29 - 4) ∧ StoresWord s t (s.readReg 29 - 4) v ∧
      t.pc = s.pc + 4 ∧ SameHiLo s t ∧ t.epc = s.epc ∧ t.params = s.params := by
  obtain ⟨u, hw⟩ := memWrite_of_backed hbacked v.toNat
  rcases pushWord_cases s v with ⟨_, -, he⟩ | ⟨f, hfault, -⟩
  · exact ⟨_, he, pushWord_changes he⟩
  · cases hw.symm.trans hfault

/-- A push whose store is not admitted does not happen (D3; logs 11, 23). -/
theorem pushWord_fault_of_not_backed {s : State} (hbacked : ¬Backed s (s.readReg 29 - 4) 4) (v : Word) :
    ∃ f, s.pushWord v = .fault f := by
  rcases pushWord_cases s v with ⟨u, hw, -⟩ | ⟨f, -, he⟩
  · exact absurd (backed_of_memWrite hw) hbacked
  · exact ⟨f, he⟩

/-- Settles O32: the row is chosen by its funct, and `push` of another register is the push of its word. -/
theorem pushDecrementsAndStores : Obligations.PushDecrementsAndStores := by
  refine ⟨rowR_of_decodeFunct (fun _ => decodeFunct_push) _, fun rt s hrt => ?_⟩
  rw [exec_push_of_ne hrt]
  exact ⟨fun hbacked => pushWord_of_backed hbacked _, fun hbacked => pushWord_fault_of_not_backed hbacked _⟩

/-- `pop $29` whose second write wins writes SP + 4 to register 29, as one register write does. -/
theorem writesReg_popWord_sp (s : State) (v : Word) :
    WritesReg s ((s.writeReg 29 v).writeReg spReg (s.readReg 29 + 4)).advance 29 (s.readReg 29 + 4) := by
  refine ⟨fun r => ?_, rfl, ⟨rfl, rfl, rfl⟩, rfl, fun _ => rfl, rfl⟩
  rw [advance_readReg, readReg_writeReg_writeReg_sp]
  by_cases hr : r = 29
  · subst hr
    simp
  · simp [hr]

/-- Settles O34: under `refuse` both forms are refused; otherwise they are the push or the pop of a word. -/
theorem stackSelfOperandFollowsParameter : Obligations.StackSelfOperandFollowsParameter := by
  refine fun s => ⟨fun hself => ⟨exec_push_self_refuse hself, exec_pop_self_refuse hself⟩, fun p q hself =>
    ⟨fun hbacked => ?_, fun b0 b1 b2 b3 h0 h1 h2 h3 => ?_⟩⟩
  · rw [exec_push_self_run hself]
    exact pushWord_of_backed hbacked _
  · have hread := memRead_four_of_holds h0 h1 h2 h3
    cases q with
    | loaded =>
      rw [if_pos rfl, ← widenWord_joinBytes]
      exact writesReg_of_exec_eq_finish ((exec_pop_self_loaded hself).trans (load_of_memRead hread widenWord spReg))
    | incremented =>
      rw [if_neg (by decide)]
      exact ⟨_, (exec_pop_self_incremented hself).trans (popWord_of_memRead hread 29), writesReg_popWord_sp s _⟩

/-- Settles O35: the pop reads the word just written, and its increment undoes the decrement. -/
theorem popUndoesPush : Obligations.PopUndoesPush := by
  intro rt rt' s t hrt hrt' ht
  rw [exec_push_of_ne hrt] at ht
  obtain ⟨hafter, -, hpc, -, -, hparams⟩ := pushWord_changes ht
  have hsp : t.readReg 29 = s.readReg 29 - 4 := by rw [hafter 29, if_pos (by simp)]
  have hread : t.memRead t.popAddr 4 = .ok (s.readReg rt).toNat := by
    rw [State.popAddr, spReg, hsp]
    exact memRead_of_pushWord ht
  have hvalue : widenWord (s.readReg rt).toNat = s.readReg rt := by simp [widenWord]
  refine ⟨_, (exec_pop_of_ne hrt' t).trans (popWord_of_memRead hread rt'), ?_, fun r hr => ?_, ?_⟩
  · rw [advance_readReg, readReg_writeReg_writeReg_sp, if_pos rfl, State.popAddr, spReg, hsp, sub_add_cancel]
  · have hother : t.readReg r = s.readReg r := by rw [hafter r, if_neg fun h29 => hr h29.1]
    rw [advance_readReg, readReg_writeReg_writeReg_sp, if_neg hr, hvalue, hparams, hother]
  · rw [advance_pc, writeReg_pc, writeReg_pc, hpc, add_assoc]
    rfl

end Sys2Proof.Proofs

/-! The invariant (00_scope.md R6; 10_state.md R22; 20_memory.md R52). Each state update keeps it, and every effect of an
instruction is a chain of such updates. -/

namespace Sys2Proof.Proofs

open Sys2Proof.Machine Sys2Proof.Claims

/-- The change from `s` to `t` leaves the parameters as they are and keeps the invariant. -/
def KeepsInv (s t : State) : Prop := t.params = s.params ∧ (s.inv → t.inv)

theorem KeepsInv.trans {s t u : State} (hst : KeepsInv s t) (htu : KeepsInv t u) : KeepsInv s u :=
  ⟨htu.1.trans hst.1, htu.2 ∘ hst.2⟩

/-- The invariant speaks of the parameters, the memory and the registers only. -/
theorem keepsInv_of_same {s t : State} (hparams : t.params = s.params) (hmem : t.mem = s.mem)
    (hregs : t.regs = s.regs) : KeepsInv s t :=
  ⟨hparams, fun hinv => by simpa only [State.inv, hparams, hmem, hregs] using hinv⟩

/-- A register write does not reach a hard-wired register 0. -/
theorem keepsInv_writeReg (s : State) (r : Reg) (v : Word) : KeepsInv s (s.writeReg r v) := by
  refine ⟨rfl, fun ⟨hwf, hmem, hbacked, hzero⟩ => ⟨hwf, hmem, hbacked, fun h0 => ?_⟩⟩
  rw [writeReg_params] at h0
  by_cases hr : r = 0
  · simp only [writeReg_regs, isZeroReg, h0, hr, decide_true, Bool.and_self, if_true]
    exact hzero h0
  · have hne : r.val ≠ 0 := fun h => hr (Fin.ext h)
    simp only [writeReg_regs, isZeroReg, hr, decide_false, Bool.and_false, Bool.false_eq_true, if_false]
    rw [Vector.getElem_set_ne _ _ hne, hzero h0]

theorem keepsInv_memWrite {s u : State} {addr : Word} {n v : Nat} (hw : s.memWrite addr n v = .ok u) :
    KeepsInv s u := by
  obtain ⟨hparams, hregs, -⟩ := memWrite_frame hw
  refine ⟨hparams, fun ⟨hwf, hmem, hbacked, hzero⟩ => ?_⟩
  obtain ⟨hmem', hbacked'⟩ := memWrite_wf hw hmem hbacked
  exact ⟨hparams ▸ hwf, hmem', hbacked', by rwa [hparams, hregs]⟩

theorem keepsInv_raise {e : Exc} {s t : State} (h : raise e s = .next t) : KeepsInv s t := by
  obtain ⟨b, -, -, rfl⟩ := raise_next h
  exact keepsInv_of_same rfl rfl rfl

theorem keepsInv_advance (s : State) : KeepsInv s s.advance :=
  keepsInv_of_same rfl rfl rfl

theorem keepsInv_of_effect {s t : State} (h : Effect s t) : KeepsInv s t := by
  cases h with
  | writes dest v h => exact h ▸ (keepsInv_writeReg s dest v).trans (keepsInv_advance _)
  | setsHiLo hi lo h => exact h ▸ keepsInv_of_same rfl rfl rfl
  | drawsHiLo h => exact h ▸ keepsInv_of_same rfl rfl rfl
  | enters e h => exact keepsInv_raise h
  | drawsAndEnters e h => exact (keepsInv_of_same (t := s.drawHiLo) rfl rfl rfl).trans (keepsInv_raise h)
  | jumps p h => exact h ▸ keepsInv_of_same rfl rfl rfl
  | links dest v p h => exact h ▸ (keepsInv_writeReg s dest v).trans (keepsInv_of_same rfl rfl rfl)
  | stores addr n v u hw h => exact h ▸ (keepsInv_memWrite hw).trans (keepsInv_advance u)
  | pushes addr n v u dest w hw h =>
    exact h ▸ (keepsInv_memWrite hw).trans ((keepsInv_writeReg u dest w).trans (keepsInv_advance _))
  | pops d d' v w h =>
    exact h ▸ (keepsInv_writeReg s d v).trans ((keepsInv_writeReg _ d' w).trans (keepsInv_advance _))

/-- Settles O45: a step is an instruction's effect or an entry, and both keep the invariant. -/
theorem stepKeepsInvariant : Obligations.StepKeepsInvariant := by
  intro s t ht
  rcases step_next_cases ht with ⟨_, _, -, -, hexec⟩ | ⟨_, _, -, -, hraise⟩
  · exact keepsInv_of_effect (exec_effect hexec)
  · exact keepsInv_raise hraise

/-- Settles O46: the reset state lists no byte and holds 0 in every register. -/
theorem resetMeetsInvariant : Obligations.ResetMeetsInvariant :=
  ⟨by decide, List.Pairwise.nil, fun _ h => (List.not_mem_nil h).elim, fun _ => by decide⟩

/-- Settles O58: a write to a hard-wired register 0 is discarded, and any other is read back. -/
theorem registerZeroFollowsParameter : Obligations.RegisterZeroFollowsParameter := by
  refine fun s v => ⟨fun hwired => ⟨readReg_zero_of_hardwired hwired, ?_⟩, fun hwired => ?_⟩
  · simp [State.writeReg, isZeroReg, hwired]
  · rw [readReg_writeReg, if_pos ⟨rfl, by simp [isZeroReg, hwired]⟩]

end Sys2Proof.Proofs

/-! The step: fetch, decode, and the decoded instruction or the entry for NonexistentOpcode (00_scope.md R14; 30_encoding.md
R90). -/

namespace Sys2Proof.Proofs

open Sys2Proof.Machine Sys2Proof.Claims

theorem step_of_memRead_error {s : State} {f : Fault} (h : s.memRead s.pc 4 = .error f) : step s = .fault f := by
  simp [step, State.fetch, h]

theorem step_of_decodeWord_error {s : State} {w : Word} {e : Reject} (hfetch : s.fetch = .ok w)
    (hdecode : decodeWord w = .error e) : step s = raise .nonexistentOpcode s := by
  simp [step, hfetch, hdecode]

/-- Settles O42, by the definition of the step. -/
theorem stepRunsDecodedInstruction : Obligations.StepRunsDecodedInstruction := by
  intro s w i hfetch hdecode
  simp [step, hfetch, hdecode]

/-- The three ways a step goes, by what its fetch and its decoding answer. -/
theorem step_cases (s : State) :
    (∃ f, s.memRead s.pc 4 = .error f ∧ step s = .fault f) ∨
    (∃ w e, s.fetch = .ok w ∧ decodeWord w = .error e ∧ step s = raise .nonexistentOpcode s) ∨
    (∃ w i, s.fetch = .ok w ∧ decodeWord w = .ok i ∧ step s = exec i s) := by
  cases hread : s.memRead s.pc 4 with
  | error f => exact .inl ⟨f, rfl, step_of_memRead_error hread⟩
  | ok v =>
    have hfetch : s.fetch = .ok (BitVec.ofNat 32 v) := by simp [State.fetch, hread]
    cases hdecode : decodeWord (BitVec.ofNat 32 v) with
    | error e => exact .inr (.inl ⟨_, e, hfetch, hdecode, step_of_decodeWord_error hfetch hdecode⟩)
    | ok i => exact .inr (.inr ⟨_, i, hfetch, hdecode, stepRunsDecodedInstruction s _ i hfetch hdecode⟩)

/-- Settles O39: the step is the entry through 253. -/
theorem undefinedWordEntersNonexistentOpcode : Obligations.UndefinedWordEntersNonexistentOpcode := by
  intro s w e hfetch hdecode hready
  obtain ⟨t, ht, henters, hhilo, -⟩ := raise_enters (e := .nonexistentOpcode) hready
  exact ⟨t, (step_of_decodeWord_error hfetch hdecode).trans ht, henters, hhilo⟩

/-- Settles O54: the step is a jump to pc, which changes nothing. -/
theorem endedStateStaysUnchanged : Obligations.EndedStateStaysUnchanged := by
  rintro s ⟨w, target, hfetch, hdecode, htarget⟩
  rw [stepRunsDecodedInstruction s w _ hfetch hdecode, exec_j, htarget]
  rfl

/-- Placing a word at a backed pc is the write of that word there. -/
theorem memWrite_withFetchWord {s : State} (hbacked : Backed s s.pc 4) (w : Word) :
    s.memWrite s.pc 4 w.toNat = .ok (s.withFetchWord 32 w.toNat) := by
  obtain ⟨u, hw⟩ := memWrite_of_backed hbacked w.toNat
  have hword : BitVec.ofNat 32 (w.toNat % 2 ^ 32) = w := by
    rw [Nat.mod_eq_of_lt w.isLt, BitVec.ofNat_toNat, BitVec.setWidth_eq]
  simp only [State.withFetchWord, State.placeWord, hword, hw]

/-- Settles O43: the fetch reads back the placed word, which decodes to its instruction. -/
theorem placedInstructionIsRun : Obligations.PlacedInstructionIsRun := by
  intro i s hwf hbacked
  have hw := memWrite_withFetchWord hbacked (encode i)
  obtain ⟨-, -, hpc, -⟩ := memWrite_frame hw
  have hfetch := fetch_of_memWrite (hpc.symm ▸ hw) rfl rfl
  exact ⟨hpc, stepRunsDecodedInstruction _ _ i hfetch (decodeWord_encode hwf)⟩

end Sys2Proof.Proofs

/-! Where an instruction or a step stops: on an address that memory does not back or holds no value for, and on the two
forms STACK_SELF_OPERAND refuses; nowhere else (20_memory.md R52; 10_state.md R24; 45_stack.md R192). -/

namespace Sys2Proof.Proofs

open Sys2Proof.Machine Sys2Proof.Claims

theorem memAccess_of_firstUnbacked {s : State} {addr : Word} {n k : Nat} (h : FirstUnbacked s addr n k) (v : Nat) :
    s.memRead addr n = .error (.outsideMemory (byteAddr addr k)) ∧
    s.memWrite addr n v = .error (.outsideMemory (byteAddr addr k)) := by
  obtain ⟨hk, hbelow, hout⟩ := h
  exact access_outsideMemory hk hbelow hout v

theorem memRead_of_firstUnwritten {s : State} {addr : Word} {n k : Nat} (h : FirstUnwritten s addr n k) :
    s.memRead addr n = .error (.unwrittenByte (byteAddr addr k)) := by
  obtain ⟨hbacked, hk, hbelow, hnone⟩ := h
  exact memRead_unwrittenByte (backed_iff.mp hbacked) hk hbelow hnone

/-- Settles O38: the vector byte is the first and only byte of the entry's read. -/
theorem unwrittenVectorByteFaults : Obligations.UnwrittenVectorByteFaults := by
  intro e s hsize hnone
  have hvector : e.vector.toNat < 256 := by cases e <;> decide
  have hfirst : FirstUnwritten s e.vector 1 0 := by
    refine ⟨fun k hk => ?_, Nat.one_pos, fun j hj => absurd hj j.not_lt_zero, byteAddr_zero _ ▸ hnone⟩
    obtain rfl : k = 0 := by omega
    rw [byteAddr_zero]
    omega
  simp only [raise, memRead_of_firstUnwritten hfirst, byteAddr_zero]

/-- But for the form that is refused, a push is the push of some word. -/
theorem exec_push_of_not_selfRefused {s : State} {rt : Reg} (hself : ¬SelfRefused s (.push rt)) :
    ∃ v, exec (.push rt) s = s.pushWord v := by
  by_cases hrt : rt = 29
  · subst hrt
    cases hstack : s.params.stackSelf with
    | refuse => exact absurd ⟨hstack, .inl rfl⟩ hself
    | run p q => exact ⟨_, exec_push_self_run hstack⟩
  · exact ⟨_, exec_push_of_ne hrt s⟩

/-- But for the form that is refused, a pop is the pop of a word, or for register 29 a load from SP. -/
theorem exec_pop_of_not_selfRefused {s : State} {rt : Reg} (hself : ¬SelfRefused s (.pop rt)) :
    exec (.pop rt) s = s.popWord rt ∨ rt = 29 ∧ exec (.pop rt) s = s.popSelfLoaded := by
  by_cases hrt : rt = 29
  · subst hrt
    cases hstack : s.params.stackSelf with
    | refuse => exact absurd ⟨hstack, .inr rfl⟩ hself
    | run p q =>
      cases q with
      | loaded => exact .inr ⟨rfl, exec_pop_self_loaded hstack⟩
      | incremented => exact .inl (exec_pop_self_incremented hstack)
  · exact .inl (exec_pop_of_ne hrt s)

theorem exec_of_selfRefused {s : State} {i : Instr} (h : SelfRefused s i) : exec i s = .refused .stackSelfOperand := by
  obtain ⟨hself, rfl | rfl⟩ := h
  · exact exec_push_self_refuse hself
  · exact exec_pop_self_refuse hself

/-- An instruction that loads answers the fault of its read. -/
theorem exec_fault_of_loadsFrom {s : State} {i : Instr} {addr : Word} {n : Nat} {f : Fault}
    (hself : ¬SelfRefused s i) (hloads : loadsFrom s i = some (addr, n)) (hread : s.memRead addr n = .error f) :
    exec i s = .fault f := by
  cases i with
  | lb | lh | lw =>
    cases hloads
    simp only [exec_lb, exec_lh, exec_lw, State.load, hread]
  | pop rt =>
    cases hloads
    rcases exec_pop_of_not_selfRefused hself with he | ⟨-, he⟩ <;> rw [he]
    · simp only [State.popWord, State.popAddr, spReg, hread]
    · simp only [State.popSelfLoaded, State.load, State.popAddr, spReg, hread]
  | _ => cases hloads

/-- An instruction that stores answers the fault of its write, whatever the value. -/
theorem exec_fault_of_storesTo {s : State} {i : Instr} {addr : Word} {n : Nat} {f : Fault}
    (hself : ¬SelfRefused s i) (hstores : storesTo s i = some (addr, n))
    (hwrite : ∀ v, s.memWrite addr n v = .error f) : exec i s = .fault f := by
  cases i with
  | sb | sw =>
    cases hstores
    simp only [exec, execSb, execSw, State.store, hwrite]
  | push rt =>
    cases hstores
    obtain ⟨v, he⟩ := exec_push_of_not_selfRefused hself
    simp only [he, State.pushWord, hwrite]
  | _ => cases hstores

/-- Settles O31: the access faults on the named byte, and the instruction or the fetch passes its fault on. -/
theorem unbackedOrUnwrittenAccessFaults : Obligations.UnbackedOrUnwrittenAccessFaults := by
  refine fun s k => ⟨fun i addr n hself => ⟨?_, fun hloads hfirst => ?_⟩, fun hfirst => ?_, fun hfirst => ?_⟩
  · rintro (hloads | hstores) hfirst
    · exact exec_fault_of_loadsFrom hself hloads (memAccess_of_firstUnbacked hfirst 0).1
    · exact exec_fault_of_storesTo hself hstores fun v => (memAccess_of_firstUnbacked hfirst v).2
  · exact exec_fault_of_loadsFrom hself hloads (memRead_of_firstUnwritten hfirst)
  · exact step_of_memRead_error (memAccess_of_firstUnbacked hfirst 0).1
  · exact step_of_memRead_error (memRead_of_firstUnwritten hfirst)

/-- The fault names an address that memory does not back, or holds no value for. -/
def MemoryFault (s : State) (f : Fault) : Prop :=
  ∃ a, a < 2 ^ 32 ∧ ((s.params.memSize ≤ a ∧ f = .outsideMemory a) ∨ (s.mem.read a = none ∧ f = .unwrittenByte a))

/-- The answer is a state, or a fault of memory. -/
inductive StopsOnMemoryOnly (s : State) : Result → Prop
  | next (t : State) : StopsOnMemoryOnly s (.next t)
  | fault {f : Fault} (h : MemoryFault s f) : StopsOnMemoryOnly s (.fault f)

theorem lt_of_mem_accessAddrs {addr : Word} {n a : Nat} (h : a ∈ accessAddrs addr n) : a < 2 ^ 32 := by
  obtain ⟨k, -, rfl⟩ := mem_accessAddrs.mp h
  exact Nat.mod_lt _ (by decide)

theorem memoryFault_of_memRead {s : State} {addr : Word} {n : Nat} {f : Fault} (h : s.memRead addr n = .error f) :
    MemoryFault s f := by
  obtain ⟨a, ha, hfault⟩ := memRead_error h
  exact ⟨a, lt_of_mem_accessAddrs ha, hfault⟩

theorem memoryFault_of_memWrite {s : State} {addr : Word} {n v : Nat} {f : Fault}
    (h : s.memWrite addr n v = .error f) : MemoryFault s f := by
  obtain ⟨a, ha, hout, hf⟩ := memWrite_error h
  exact ⟨a, lt_of_mem_accessAddrs ha, .inl ⟨hout, hf⟩⟩

namespace StopsOnMemoryOnly

theorem of_raise (e : Exc) (s : State) : StopsOnMemoryOnly s (raise e s) := by
  rcases raise_cases e s with ⟨b, -, -, he⟩ | ⟨f, hf, he⟩ <;> rw [he]
  · exact .next _
  · exact .fault (memoryFault_of_memRead hf)

theorem of_finishOrOverflow (s : State) (o : Bool) (dest : Reg) (v : Word) :
    StopsOnMemoryOnly s (s.finishOrOverflow o dest v) := by
  rcases finishOrOverflow_cases s o dest v with ⟨-, he⟩ | ⟨-, he⟩ <;> rw [he]
  · exact .next _
  · exact of_raise _ s

theorem of_load (s : State) (addr : Word) (n : Nat) (widen : Nat → Word) (dest : Reg) :
    StopsOnMemoryOnly s (s.load addr n widen dest) := by
  rcases load_cases s addr n widen dest with ⟨v, -, he⟩ | ⟨f, hf, he⟩ <;> rw [he]
  · exact .next _
  · exact .fault (memoryFault_of_memRead hf)

theorem of_store (s : State) (addr : Word) (n v : Nat) : StopsOnMemoryOnly s (s.store addr n v) := by
  rcases store_cases s addr n v with ⟨t, -, he⟩ | ⟨f, hf, he⟩ <;> rw [he]
  · exact .next _
  · exact .fault (memoryFault_of_memWrite hf)

theorem of_pushWord (s : State) (v : Word) : StopsOnMemoryOnly s (s.pushWord v) := by
  rcases pushWord_cases s v with ⟨t, -, he⟩ | ⟨f, hf, he⟩ <;> rw [he]
  · exact .next _
  · exact .fault (memoryFault_of_memWrite hf)

theorem of_popWord (s : State) (rt : Reg) : StopsOnMemoryOnly s (s.popWord rt) := by
  rcases popWord_cases s rt with ⟨v, -, he⟩ | ⟨f, hf, he⟩ <;> rw [he]
  · exact .next _
  · exact .fault (memoryFault_of_memRead hf)

theorem of_branch (s : State) (taken : Bool) (imm : BitVec 16) : StopsOnMemoryOnly s (s.branch taken imm) := by
  rw [branch_eq]
  exact .next _

/-- The entry of a `div` by zero starts from the drawn HI and LO, which no memory access looks at. -/
theorem of_div (rs rt : Reg) (s : State) : StopsOnMemoryOnly s (exec (.div rs rt) s) := by
  simp only [exec, execDiv]
  split
  · cases hraise : raise .divideByZero s.drawHiLo with
    | next t => exact .next t
    | fault f => exact .fault (memoryFault_of_memRead (s := s.drawHiLo) (raise_fault hraise))
    | refused r => exact absurd hraise (raise_not_refused _ _ r)
  · split <;> exact .next _

/-- But for the two refused forms, every instruction answers a state or a fault of memory. -/
theorem of_exec {s : State} {i : Instr} (hself : ¬SelfRefused s i) : StopsOnMemoryOnly s (exec i s) := by
  cases i with
  | add | sub | addi => exact of_finishOrOverflow s _ _ _
  | and | slt | slti | lui | sll | srl | sllv | mfhi | mflo | mult | jr | j | rte | jal => exact .next _
  | div rs rt => exact of_div rs rt s
  | beq | bne | ble | bgt => exact of_branch s _ _
  | lb | lh | lw => exact of_load s _ _ _ _
  | sb | sw => exact of_store s _ _ _
  | push =>
    obtain ⟨v, he⟩ := exec_push_of_not_selfRefused hself
    exact he ▸ of_pushWord s v
  | pop rt =>
    rcases exec_pop_of_not_selfRefused hself with he | ⟨-, he⟩ <;> rw [he]
    · exact of_popWord s rt
    · exact of_load s _ _ _ _

end StopsOnMemoryOnly

/-- Settles O52: an instruction that is not one of the two refused forms answers no refusal. -/
theorem onlyStackSelfOperandIsRefused : Obligations.OnlyStackSelfOperandIsRefused := by
  intro i s r hr
  by_cases hself : SelfRefused s i
  · have hrefusal := hr.symm.trans (exec_of_selfRefused hself)
    obtain ⟨hstack, hform⟩ := hself
    cases hrefusal
    exact ⟨hform, hstack, rfl⟩
  · have hstops := hr ▸ StopsOnMemoryOnly.of_exec hself
    cases hstops

/-- Settles O53: the fetch, an entry and every instruction fault on memory alone. -/
theorem faultsComeFromMemoryOnly : Obligations.FaultsComeFromMemoryOnly := by
  intro s f hf
  have hfault : StopsOnMemoryOnly s (.fault f) → MemoryFault s f := by
    rintro ⟨⟩
    assumption
  rcases step_cases s with ⟨f', hread, he⟩ | ⟨w, e, -, -, he⟩ | ⟨w, i, -, -, he⟩ <;> rw [he] at hf
  · cases hf
    exact memoryFault_of_memRead hread
  · exact hfault (hf ▸ .of_raise _ s)
  · by_cases hself : SelfRefused s i
    · cases hf.symm.trans (exec_of_selfRefused hself)
    · exact hfault (hf ▸ .of_exec hself)

end Sys2Proof.Proofs

/-! What one instruction does, column by column: it raises and enters, or it completes and changes only what the tables of
10_state.md R23, R28, R31 and R32 and of 20_memory.md R58 list for it. The claims about a whole step follow. -/

namespace Sys2Proof.Proofs

open Sys2Proof.Machine Sys2Proof.Claims

/-- HI and LO keep their values, or the instruction is one that writes them (10_state.md R31). -/
def KeepsHiLo (i : Instr) (s t : State) : Prop :=
  (∃ rs rt, i = .mult rs rt ∨ i = .div rs rt) ∨ t.hi = s.hi ∧ t.lo = s.lo

/-- What an instruction that raises nothing leaves behind. -/
structure Completed (i : Instr) (s t : State) : Prop where
  pc : t.pc = pcAfter s i
  epc : t.epc = s.epc
  regs : ∀ r, r ∉ writes i → t.readReg r = s.readReg r
  hiLo : KeepsHiLo i s t
  mem : ∀ a, t.mem.read a = s.mem.read a ∨ ∃ addr n, storesTo s i = some (addr, n) ∧ a ∈ accessAddrs addr n

theorem readReg_writeReg_of_ne (s : State) {r dest : Reg} (hr : r ≠ dest) (v : Word) :
    (s.writeReg dest v).readReg r = s.readReg r := by
  rw [readReg_writeReg, if_neg fun h => hr h.1]

namespace Completed
variable {i : Instr} {s t : State}

theorem of_writeReg {dest : Reg} {v : Word} (hwrites : writes i = [dest]) (hpc : pcAfter s i = s.pc + 4) :
    Completed i s (s.writeReg dest v).advance where
  pc := hpc.symm
  epc := rfl
  regs r hr := readReg_writeReg_of_ne s (by simpa [hwrites] using hr) v
  hiLo := .inr ⟨rfl, rfl⟩
  mem _ := .inl rfl

theorem of_finishOrOverflow {o : Bool} {dest : Reg} {v : Word} (h : s.finishOrOverflow o dest v = .next t)
    (hfits : o = false) (hwrites : writes i = [dest]) (hpc : pcAfter s i = s.pc + 4) : Completed i s t := by
  subst hfits
  cases h
  exact of_writeReg hwrites hpc

theorem of_load {addr : Word} {n : Nat} {widen : Nat → Word} {dest : Reg} (h : s.load addr n widen dest = .next t)
    (hwrites : writes i = [dest]) (hpc : pcAfter s i = s.pc + 4) : Completed i s t := by
  rcases load_cases s addr n widen dest with ⟨v, -, he⟩ | ⟨f, -, he⟩ <;> rw [he] at h <;> cases h
  exact of_writeReg hwrites hpc

theorem of_jumpTo {p : Word} (hpc : pcAfter s i = p) : Completed i s (s.jumpTo p) where
  pc := hpc.symm
  epc := rfl
  regs _ _ := rfl
  hiLo := .inr ⟨rfl, rfl⟩
  mem _ := .inl rfl

theorem of_store {addr : Word} {n v : Nat} (h : s.store addr n v = .next t) (hstores : storesTo s i = some (addr, n))
    (hpc : pcAfter s i = s.pc + 4) : Completed i s t := by
  rcases store_cases s addr n v with ⟨u, hw, he⟩ | ⟨f, -, he⟩ <;> rw [he] at h <;> cases h
  obtain ⟨-, -, hpc', hhi, hlo, hepc, -, hother⟩ := memWrite_frame hw
  refine ⟨by rw [advance_pc, hpc', hpc], hepc, fun r _ => sameRegs_of_memWrite hw r, .inr ⟨hhi, hlo⟩, fun a => ?_⟩
  by_cases ha : a ∈ accessAddrs addr n
  · exact .inr ⟨addr, n, hstores, ha⟩
  · exact .inl (hother a ha)

theorem of_pushWord {v : Word} {rt : Reg} (h : s.pushWord v = .next t) : Completed (.push rt) s t := by
  obtain ⟨u, hw, rfl⟩ := pushWord_next h
  obtain ⟨-, -, hpc, hhi, hlo, hepc, -, hother⟩ := memWrite_frame hw
  refine ⟨congrArg (· + 4) hpc, hepc, fun r hr => ?_, .inr ⟨hhi, hlo⟩, fun a => ?_⟩
  · have h29 : r ≠ 29 := by simpa [writes] using hr
    exact (readReg_writeReg_of_ne u h29 _).trans (sameRegs_of_memWrite hw r)
  · by_cases ha : a ∈ accessAddrs (s.readReg 29 - 4) 4
    · exact .inr ⟨_, 4, rfl, ha⟩
    · exact .inl (hother a ha)

theorem of_popWord {rt : Reg} (h : s.popWord rt = .next t) : Completed (.pop rt) s t := by
  rcases popWord_cases s rt with ⟨v, -, he⟩ | ⟨f, -, he⟩ <;> rw [he] at h <;> cases h
  refine ⟨rfl, rfl, fun r hr => ?_, .inr ⟨rfl, rfl⟩, fun _ => .inl rfl⟩
  obtain ⟨hrt, h29⟩ : r ≠ rt ∧ r ≠ 29 := by simpa [writes] using hr
  exact (readReg_writeReg_of_ne _ h29 _).trans (readReg_writeReg_of_ne s hrt _)

theorem of_mult {rs rt : Reg} (h : exec (.mult rs rt) s = .next t) : Completed (.mult rs rt) s t := by
  cases h
  exact ⟨rfl, rfl, fun _ _ => rfl, .inl ⟨rs, rt, .inl rfl⟩, fun _ => .inl rfl⟩

theorem of_div {rs rt : Reg} (hzero : s.readReg rt ≠ 0) (h : exec (.div rs rt) s = .next t) :
    Completed (.div rs rt) s t := by
  have hhilo : KeepsHiLo (.div rs rt) s t := .inl ⟨rs, rt, .inr rfl⟩
  by_cases hover : (s.readReg rs).toInt = -2 ^ 31 ∧ (s.readReg rt).toInt = -1
  · rw [exec_div_overflow hover.1 hover.2] at h
    cases h
    exact ⟨rfl, rfl, fun _ _ => rfl, hhilo, fun _ => .inl rfl⟩
  · rw [exec_div_of_regular hzero hover] at h
    cases h
    exact ⟨rfl, rfl, fun _ _ => rfl, hhilo, fun _ => .inl rfl⟩

theorem of_jal {target : BitVec 26} (h : exec (.jal target) s = .next t) : Completed (.jal target) s t := by
  rw [exec_jal] at h
  cases h
  refine ⟨rfl, rfl, fun r hr => ?_, .inr ⟨rfl, rfl⟩, fun _ => .inl rfl⟩
  exact readReg_writeReg_of_ne s (by simpa [writes, linkReg] using hr) _

theorem of_push {rt : Reg} (h : exec (.push rt) s = .next t) : Completed (.push rt) s t := by
  by_cases hself : SelfRefused s (.push rt)
  · cases h.symm.trans (exec_of_selfRefused hself)
  · obtain ⟨v, he⟩ := exec_push_of_not_selfRefused hself
    exact of_pushWord (he.symm.trans h)

theorem of_pop {rt : Reg} (h : exec (.pop rt) s = .next t) : Completed (.pop rt) s t := by
  by_cases hself : SelfRefused s (.pop rt)
  · cases h.symm.trans (exec_of_selfRefused hself)
  · rcases exec_pop_of_not_selfRefused hself with he | ⟨rfl, he⟩ <;> rw [he] at h
    · exact of_popWord h
    · rcases load_cases s s.popAddr 4 widenWord spReg with ⟨v, -, he⟩ | ⟨f, -, he⟩ <;>
        cases he.symm.trans h
      refine ⟨rfl, rfl, fun r hr => ?_, .inr ⟨rfl, rfl⟩, fun _ => .inl rfl⟩
      exact readReg_writeReg_of_ne s (by simpa [writes, spReg] using hr) _

/-- Every instruction that raises nothing and answers a state leaves that behind. -/
theorem of_exec (hnone : raises s i = none) (h : exec i s = .next t) : Completed i s t := by
  cases i with
  | add | sub | addi =>
    exact of_finishOrOverflow h (by simpa [raises, flagOAdd, flagOSub, immWord, sext] using hnone) rfl rfl
  | and | slt | slti | lui | sll | srl | sllv | mfhi | mflo =>
    cases h
    exact of_writeReg rfl rfl
  | mult => exact of_mult h
  | div => exact of_div (by simpa [raises] using hnone) h
  | jr | rte =>
    cases h
    exact of_jumpTo rfl
  | j target =>
    cases h
    exact of_jumpTo (jumpTarget_eq_jumpPc s target).symm
  | jal => exact of_jal h
  | beq | bne | ble | bgt =>
    simp only [exec_beq, exec_bne, exec_ble, exec_bgt] at h
    cases h
    exact of_jumpTo rfl
  | lb | lh | lw => exact of_load h rfl rfl
  | sb | sw => exact of_store h rfl rfl
  | push => exact of_push h
  | pop => exact of_pop h

end Completed

/-- An instruction that raises does nothing but take the entry, `div` after drawing HI and LO. -/
theorem exec_eq_raise {i : Instr} {s : State} {vec : Nat} (h : raises s i = some vec) :
    ∃ e u, e.vector.toNat = vec ∧ exec i s = raise e u ∧ (u = s ∨ (∃ rs rt, i = .div rs rt) ∧ u = s.drawHiLo) := by
  cases i with
  | add | sub | addi =>
    obtain ⟨ho, ⟨⟩⟩ := Option.ite_none_right_eq_some.mp h
    exact ⟨.overflow, s, rfl, if_pos ho, .inl rfl⟩
  | div rs rt =>
    obtain ⟨hzero, ⟨⟩⟩ := Option.ite_none_right_eq_some.mp h
    exact ⟨.divideByZero, s.drawHiLo, rfl, exec_div_zero hzero rs, .inr ⟨⟨rs, rt, rfl⟩, rfl⟩⟩
  | _ => cases h

theorem raise_next_enters {e : Exc} {s t : State} (h : raise e s = .next t) :
    VectorReady s e.vector.toNat ∧ Enters s t e.vector.toNat ∧ t.hi = s.hi ∧ t.lo = s.lo := by
  obtain ⟨b, hbacked, hb, rfl⟩ := raise_next h
  exact ⟨⟨hbacked, b, hb⟩, enters_of_read hb, rfl, rfl⟩

/-- What an instruction that raises leaves behind: the entry, and the vector byte was ready for it. -/
theorem exec_enters {i : Instr} {s t : State} {vec : Nat} (hraises : raises s i = some vec)
    (h : exec i s = .next t) : VectorReady s vec ∧ Enters s t vec ∧ KeepsHiLo i s t := by
  obtain ⟨e, u, rfl, he, hu⟩ := exec_eq_raise hraises
  obtain ⟨hready, henters, hhilo⟩ := raise_next_enters (he.symm.trans h)
  rcases hu with rfl | ⟨⟨rs, rt, rfl⟩, rfl⟩
  · exact ⟨hready, henters, .inr hhilo⟩
  · exact ⟨hready, henters, .inl ⟨rs, rt, .inr rfl⟩⟩

/-- An instruction that raises completes its entry where the vector byte is ready. -/
theorem exec_enters_of_ready {i : Instr} {s : State} {vec : Nat} (hraises : raises s i = some vec)
    (hready : VectorReady s vec) : ∃ t, exec i s = .next t ∧ Enters s t vec := by
  obtain ⟨e, u, rfl, he, hu⟩ := exec_eq_raise hraises
  rcases hu with rfl | ⟨-, rfl⟩
  · obtain ⟨t, ht, henters, -⟩ := raise_enters hready
    exact ⟨t, he.trans ht, henters⟩
  · obtain ⟨t, ht, henters, -⟩ := raise_enters (s := s.drawHiLo) hready
    exact ⟨t, he.trans ht, henters⟩

/-- Settles O40: what raises enters, and what completes keeps EPC. -/
theorem exactlyOverflowAndZeroDivideRaise : Obligations.ExactlyOverflowAndZeroDivideRaise :=
  fun _ _ _ ht => ⟨fun _ hraises => (exec_enters hraises ht).2.1, fun hnone => (Completed.of_exec hnone ht).epc⟩

/-- Settles O44: the pc column of what completes. -/
theorem pcFollowsTableUnlessRaising : Obligations.PcFollowsTableUnlessRaising :=
  fun _ _ _ hnone ht => (Completed.of_exec hnone ht).pc

/-- Settles O47: an entry writes no register. -/
theorem onlyListedRegistersAreWritten : Obligations.OnlyListedRegistersAreWritten := by
  intro i s t ht r hr
  cases hraises : raises s i with
  | none => exact (Completed.of_exec hraises ht).regs r hr
  | some vec =>
    obtain ⟨-, ⟨-, -, hregs, -⟩, -⟩ := exec_enters hraises ht
    exact hregs r

theorem exec_keepsHiLo {i : Instr} {s t : State} (h : exec i s = .next t) : KeepsHiLo i s t := by
  cases hraises : raises s i with
  | none => exact (Completed.of_exec hraises h).hiLo
  | some vec => exact (exec_enters hraises h).2.2

/-- Settles O49: an entry and every other instruction keep HI and LO. -/
theorem onlyMultAndDivChangeHiLo : Obligations.OnlyMultAndDivChangeHiLo := by
  intro s t ht hchange
  rcases step_next_cases ht with ⟨w, i, hfetch, hdecode, hexec⟩ | ⟨w, e, -, -, hraise⟩
  · rcases exec_keepsHiLo hexec with ⟨rs, rt, rfl | rfl⟩ | ⟨hhi, hlo⟩
    · exact ⟨w, rs, rt, hfetch, .inl hdecode⟩
    · exact ⟨w, rs, rt, hfetch, .inr hdecode⟩
    · exact absurd hchange (by simp [hhi, hlo])
  · obtain ⟨-, -, hhi, hlo⟩ := raise_next_enters hraise
    exact absurd hchange (by simp [hhi, hlo])

/-- An entry by any exception goes through one of the three vector bytes (R210). -/
theorem enters_vector {s t : State} {e : Exc} (h : Enters s t e.vector.toNat) :
    t.epc = s.pc ∧ (Enters s t 253 ∨ Enters s t 254 ∨ Enters s t 255) := by
  refine ⟨h.2.1, ?_⟩
  cases e with
  | nonexistentOpcode => exact .inl h
  | overflow => exact .inr (.inl h)
  | divideByZero => exact .inr (.inr h)

/-- Settles O50: an instruction that raises nothing keeps EPC, so the step is an entry. -/
theorem onlyEntryChangesEpc : Obligations.OnlyEntryChangesEpc := by
  intro s t ht hepc
  rcases step_next_cases ht with ⟨w, i, -, -, hexec⟩ | ⟨w, e, -, -, hraise⟩
  · cases hraises : raises s i with
    | none => exact absurd (Completed.of_exec hraises hexec).epc hepc
    | some vec =>
      obtain ⟨e, -, rfl, -⟩ := exec_eq_raise hraises
      obtain ⟨-, henters, -⟩ := exec_enters hraises hexec
      exact enters_vector henters
  · obtain ⟨-, henters, -⟩ := raise_next_enters hraise
    exact enters_vector henters

/-- Settles O51: an entry changes no byte, and an instruction only those of the access its store makes. -/
theorem onlyStoresChangeMemory : Obligations.OnlyStoresChangeMemory := by
  intro s t a ht hbyte
  rcases step_next_cases ht with ⟨w, i, hfetch, hdecode, hexec⟩ | ⟨w, e, -, -, hraise⟩
  · cases hraises : raises s i with
    | none =>
      rcases (Completed.of_exec hraises hexec).mem a with hsame | ⟨addr, n, hstores, ha⟩
      · exact absurd hsame hbyte
      · exact ⟨w, i, addr, n, hfetch, hdecode, hstores, mem_accessAddrs_iff.mp ha⟩
    | some vec =>
      obtain ⟨-, ⟨-, -, -, hmem, -⟩, -⟩ := exec_enters hraises hexec
      exact absurd (hmem a) hbyte
  · obtain ⟨-, ⟨-, -, -, hmem, -⟩, -⟩ := raise_next_enters hraise
    exact absurd (hmem a) hbyte

/-- What an instruction raises is decided by what the general registers read. -/
theorem raises_congr {s t : State} (hregs : SameRegs s t) (i : Instr) : raises t i = raises s i := by
  have hread : ∀ r, t.readReg r = s.readReg r := hregs
  cases i with
  | add | sub | addi | div => simp only [raises, hread]
  | _ => rfl

/-- Settles O41: `rte` restores pc, and from the same registers and memory the same entry is taken. -/
theorem rteRepeatsTheException : Obligations.RteRepeatsTheException := by
  intro i s t u vec hraises ht huregs humem huparams huepc
  obtain ⟨⟨hbacked, -⟩, ⟨⟨b, hb, hpc⟩, hepc, hregs, hmem, hparams⟩, -⟩ := exec_enters hraises ht
  have hvec : (returnFromException u).mem.read vec = some b := by
    rw [returnFromException_mem, humem, hmem vec, hb]
  have hsame : SameRegs s (returnFromException u) := fun r =>
    (readReg_congr (s := t) (t := returnFromException u) huparams huregs r).trans (hregs r)
  have hready : VectorReady (returnFromException u) vec :=
    ⟨by rwa [returnFromException_params, huparams, hparams], b, hvec⟩
  obtain ⟨x, hx, ⟨b', hb', hxpc⟩, hxepc, -⟩ := exec_enters_of_ready ((raises_congr hsame i).trans hraises) hready
  obtain rfl : b = b' := Option.some.inj (hvec.symm.trans hb')
  refine ⟨_, exec_rte u, ?_, x, hx, hxpc.trans hpc.symm, ?_⟩
  · rw [returnFromException_pc, huepc, hepc]
  · rw [hxepc, returnFromException_pc, huepc]

end Sys2Proof.Proofs

/-! Which general registers an instruction reads (10_state.md R23). Two states that differ in one register only stay so
through every operation, and an instruction that does not read the register does the same in both. -/

namespace Sys2Proof.Proofs

open Sys2Proof.Machine Sys2Proof.Claims

/-- The states agree on everything but, perhaps, what register `r` reads. -/
structure SameBut (r : Reg) (s s' : State) : Prop where
  params : s'.params = s.params
  pc : s'.pc = s.pc
  hi : s'.hi = s.hi
  lo : s'.lo = s.lo
  epc : s'.epc = s.epc
  mem : s'.mem = s.mem
  draws : s'.draws = s.draws
  regs : ∀ r', r ≠ r' → s'.readReg r' = s.readReg r'

/-- The value a write leaves to be read depends on the parameters only. -/
theorem readReg_writeReg_same_congr {s s' : State} (hparams : s'.params = s.params) (dest : Reg) (v : Word) :
    (s'.writeReg dest v).readReg dest = (s.writeReg dest v).readReg dest := by
  rw [readReg_writeReg, readReg_writeReg, hparams]
  cases hzero : isZeroReg s.params dest with
  | false => simp
  | true => simp [State.readReg, hparams, hzero]

namespace SameBut
variable {r : Reg} {s s' : State}

theorem of_writeReg (s : State) (r : Reg) (v : Word) : SameBut r s (s.writeReg r v) :=
  ⟨rfl, rfl, rfl, rfl, rfl, rfl, rfl, fun _ hr => readReg_writeReg_of_ne s hr.symm v⟩

theorem writeReg (h : SameBut r s s') (dest : Reg) (v : Word) :
    SameBut r (s.writeReg dest v) (s'.writeReg dest v) := by
  refine ⟨h.params, h.pc, h.hi, h.lo, h.epc, h.mem, h.draws, fun r' hr => ?_⟩
  by_cases hdest : r' = dest
  · subst hdest
    exact readReg_writeReg_same_congr h.params r' v
  · rw [readReg_writeReg_of_ne s' hdest, readReg_writeReg_of_ne s hdest, h.regs r' hr]

theorem jumpTo (h : SameBut r s s') (p : Word) : SameBut r (s.jumpTo p) (s'.jumpTo p) :=
  ⟨h.params, rfl, h.hi, h.lo, h.epc, h.mem, h.draws, h.regs⟩

theorem advance (h : SameBut r s s') : SameBut r s.advance s'.advance :=
  ⟨h.params, congrArg (· + 4) h.pc, h.hi, h.lo, h.epc, h.mem, h.draws, h.regs⟩

theorem setHiLo (h : SameBut r s s') (hi lo : Word) : SameBut r (s.setHiLo hi lo) (s'.setHiLo hi lo) :=
  ⟨h.params, h.pc, rfl, rfl, h.epc, h.mem, h.draws, h.regs⟩

/-- Free values are the same at the same draw (log 13). -/
theorem drawHiLo (h : SameBut r s s') : SameBut r s.drawHiLo s'.drawHiLo :=
  ⟨h.params, h.pc, congrArg Config.freeHi h.draws, congrArg Config.freeLo h.draws, h.epc, h.mem,
    congrArg (· + 1) h.draws, h.regs⟩

theorem memRead (h : SameBut r s s') (addr : Word) (n : Nat) : s'.memRead addr n = s.memRead addr n :=
  memRead_congr h.params h.mem addr n

theorem memWrite (h : SameBut r s s') {u : State} {addr : Word} {n v : Nat} (hw : s.memWrite addr n v = .ok u) :
    ∃ u', s'.memWrite addr n v = .ok u' ∧ SameBut r u u' := by
  obtain ⟨hbacked, rfl⟩ := memWrite_ok_iff.mp hw
  exact ⟨_, memWrite_ok_iff.mpr ⟨by rwa [h.params], rfl⟩, h.params, h.pc, h.hi, h.lo, h.epc, by rw [h.params, h.mem],
    h.draws, h.regs⟩

end SameBut

/-- Where `res` is a state, `res'` is one that differs from it in what `r` reads only, and not even there when the
instruction has `written` the register. -/
def Follows (r : Reg) (written : Prop) (res res' : Result) : Prop :=
  ∀ t, res = .next t → ∃ t', res' = .next t' ∧ SameBut r t t' ∧ (written → t'.readReg r = t.readReg r)

namespace Follows
variable {r : Reg} {written : Prop} {s s' : State}

theorem next {t t' : State} (h : SameBut r t t') (hwritten : written → t'.readReg r = t.readReg r) :
    Follows r written (.next t) (.next t') := by
  rintro _ ⟨⟩
  exact ⟨t', rfl, h, hwritten⟩

theorem refused (reason : Refusal) (res' : Result) : Follows r written (.refused reason) res' :=
  fun _ ht => nomatch ht

theorem finish (h : SameBut r s s') (dest : Reg) (v : Word) (hdest : written → r = dest) :
    Follows r written (s.finish dest v) (s'.finish dest v) := by
  refine next (h.writeReg dest v).advance fun hw => ?_
  cases hdest hw
  exact readReg_writeReg_same_congr h.params r v

theorem raise (h : SameBut r s s') (e : Exc) (hunwritten : ¬written) :
    Follows r written (raise e s) (raise e s') := by
  intro t ht
  obtain ⟨b, hbacked, hb, rfl⟩ := raise_next ht
  exact ⟨_, raise_of_read (by rwa [h.params]) (by rwa [h.mem]),
    ⟨h.params, rfl, h.hi, h.lo, h.pc, h.mem, h.draws, h.regs⟩, fun hw => absurd hw hunwritten⟩

theorem finishOrOverflow (h : SameBut r s s') {o : Bool} (dest : Reg) (v : Word) (hover : o = true → ¬written)
    (hdest : written → r = dest) :
    Follows r written (s.finishOrOverflow o dest v) (s'.finishOrOverflow o dest v) := by
  cases o with
  | false => exact finish h dest v hdest
  | true => exact raise h .overflow (hover rfl)

theorem load (h : SameBut r s s') (addr : Word) (n : Nat) (widen : Nat → Word) (dest : Reg)
    (hdest : written → r = dest) : Follows r written (s.load addr n widen dest) (s'.load addr n widen dest) := by
  intro t ht
  rcases load_cases s addr n widen dest with ⟨v, hread, he⟩ | ⟨f, -, he⟩
  · rw [load_of_memRead ((h.memRead addr n).trans hread)]
    exact finish h dest (widen v) hdest t (he.symm.trans ht)
  · cases he.symm.trans ht

theorem store (h : SameBut r s s') (addr : Word) (n v : Nat) (hunwritten : ¬written) :
    Follows r written (s.store addr n v) (s'.store addr n v) := by
  intro t ht
  rcases store_cases s addr n v with ⟨u, hw, he⟩ | ⟨f, -, he⟩ <;> cases he.symm.trans ht
  obtain ⟨u', hw', hu⟩ := h.memWrite hw
  exact ⟨_, by simp only [State.store, hw'], hu.advance, fun hwritten => absurd hwritten hunwritten⟩

theorem branch (h : SameBut r s s') (taken : Bool) (imm : BitVec 16) (hunwritten : ¬written) :
    Follows r written (s.branch taken imm) (s'.branch taken imm) := by
  simp only [branch_eq, State.branchTarget, h.pc]
  exact next (h.jumpTo _) fun hwritten => absurd hwritten hunwritten

theorem pushWord (h : SameBut r s s') (h29 : r ≠ 29) (v : Word) (hdest : written → r = 29) :
    Follows r written (s.pushWord v) (s'.pushWord v) := by
  intro t ht
  obtain ⟨u, hw, rfl⟩ := pushWord_next ht
  obtain ⟨u', hw', hu⟩ := h.memWrite hw
  have hpush : s'.pushWord v = .next (u'.writeReg 29 (s.readReg 29 - 4)).advance := by
    simp only [State.pushWord, State.pushAddr, spReg, h.regs 29 h29, hw']
  exact ⟨_, hpush, (hu.writeReg 29 _).advance, fun hwritten => absurd (hdest hwritten) h29⟩

theorem popWord (h : SameBut r s s') (h29 : r ≠ 29) (rt : Reg) (hdest : written → r = rt) :
    Follows r written (s.popWord rt) (s'.popWord rt) := by
  intro t ht
  have hne : r ≠ spReg := h29
  have hsp : s'.popAddr = s.popAddr := h.regs 29 h29
  rcases popWord_cases s rt with ⟨v, hread, he⟩ | ⟨f, -, he⟩ <;> cases he.symm.trans ht
  rw [popWord_of_memRead (by rw [hsp, h.memRead, hread]), hsp]
  refine ⟨_, rfl, ((h.writeReg rt _).writeReg spReg _).advance, fun hwritten => ?_⟩
  cases hdest hwritten
  rw [advance_readReg, advance_readReg, readReg_writeReg_of_ne _ hne, readReg_writeReg_of_ne _ hne]
  exact readReg_writeReg_same_congr h.params r _

theorem push (h : SameBut r s s') {rt : Reg} (hrt : r ≠ rt) (h29 : r ≠ 29) (hdest : written → r = 29) :
    Follows r written (exec (.push rt) s) (exec (.push rt) s') := by
  by_cases hself : rt = 29
  · subst hself
    cases hstack : s.params.stackSelf with
    | refuse =>
      rw [exec_push_self_refuse hstack]
      exact refused _ _
    | run p q =>
      rw [exec_push_self_run hstack, exec_push_self_run (h.params ▸ hstack), h.regs 29 h29]
      exact pushWord h h29 _ hdest
  · rw [exec_push_of_ne hself, exec_push_of_ne hself, h.regs rt hrt]
    exact pushWord h h29 _ hdest

theorem pop (h : SameBut r s s') (h29 : r ≠ 29) {rt : Reg} (hdest : written → r = rt) :
    Follows r written (exec (.pop rt) s) (exec (.pop rt) s') := by
  by_cases hself : rt = 29
  · subst hself
    cases hstack : s.params.stackSelf with
    | refuse =>
      rw [exec_pop_self_refuse hstack]
      exact refused _ _
    | run p q =>
      have hstack' : s'.params.stackSelf = .run p q := h.params ▸ hstack
      cases q with
      | loaded =>
        rw [exec_pop_self_loaded hstack, exec_pop_self_loaded hstack', State.popSelfLoaded, State.popSelfLoaded,
          State.popAddr, State.popAddr, spReg, h.regs 29 h29]
        exact load h _ _ _ _ hdest
      | incremented =>
        rw [exec_pop_self_incremented hstack, exec_pop_self_incremented hstack']
        exact popWord h h29 29 hdest
  · rw [exec_pop_of_ne hself, exec_pop_of_ne hself]
    exact popWord h h29 rt hdest

theorem div (h : SameBut r s s') {rs rt : Reg} (hrs : r ≠ rs) (hrt : r ≠ rt) (hunwritten : ¬written) :
    Follows r written (exec (.div rs rt) s) (exec (.div rs rt) s') := by
  have hvacuous : ∀ {t t' : State}, written → t'.readReg r = t.readReg r := fun hw => absurd hw hunwritten
  simp only [exec, execDiv, h.regs rs hrs, h.regs rt hrt]
  split
  · exact raise h.drawHiLo _ hunwritten
  · split
    · exact next h.drawHiLo.advance hvacuous
    · exact next (h.setHiLo _ _).advance hvacuous

end Follows

/-- An instruction does the same in two states that differ in a register it does not read only; the register itself, too,
reads the same after it where the instruction completes and writes it. -/
theorem exec_follows {r : Reg} {s s' : State} (h : SameBut r s s') {i : Instr} (hr : r ∉ reads i) :
    Follows r (raises s i = none ∧ r ∈ writes i) (exec i s) (exec i s') := by
  cases i with
  | add rd rs rt | sub rd rs rt =>
    obtain ⟨hrs, hrt⟩ : r ≠ rs ∧ r ≠ rt := by simpa [reads] using hr
    simp only [exec_add, exec_sub, h.regs _ hrs, h.regs _ hrt]
    exact .finishOrOverflow h _ _ (fun ho hw => by simp [raises, ho] at hw) fun hw => List.mem_singleton.mp hw.2
  | addi rt rs imm =>
    have hrs : r ≠ rs := by simpa [reads] using hr
    have himm : (imm.signExtend 32).toInt = imm.toInt := immWord_toInt imm
    simp only [exec_addi, h.regs _ hrs]
    exact .finishOrOverflow h _ _ (fun ho hw => by simp [raises, himm, ho] at hw) fun hw => List.mem_singleton.mp hw.2
  | and rd rs rt | slt rd rs rt | sllv rd rs rt =>
    obtain ⟨hrs, hrt⟩ : r ≠ rs ∧ r ≠ rt := by simpa [reads] using hr
    simp only [exec_and, exec_slt, exec_sllv, h.regs _ hrs, h.regs _ hrt]
    exact .finish h _ _ fun hw => List.mem_singleton.mp hw.2
  | sll rd rt | srl rd rt =>
    have hrt : r ≠ rt := by simpa [reads] using hr
    simp only [exec_sll, exec_srl, h.regs _ hrt]
    exact .finish h _ _ fun hw => List.mem_singleton.mp hw.2
  | slti rt rs =>
    have hrs : r ≠ rs := by simpa [reads] using hr
    simp only [exec_slti, h.regs _ hrs]
    exact .finish h _ _ fun hw => List.mem_singleton.mp hw.2
  | lui | mfhi | mflo =>
    simp only [exec_lui, exec_mfhi, exec_mflo, h.hi, h.lo]
    exact .finish h _ _ fun hw => List.mem_singleton.mp hw.2
  | mult rs rt =>
    obtain ⟨hrs, hrt⟩ : r ≠ rs ∧ r ≠ rt := by simpa [reads] using hr
    simp only [exec_mult, h.regs _ hrs, h.regs _ hrt]
    exact .next (h.setHiLo _ _).advance fun hw => absurd hw.2 List.not_mem_nil
  | div rs rt =>
    obtain ⟨hrs, hrt⟩ : r ≠ rs ∧ r ≠ rt := by simpa [reads] using hr
    exact .div h hrs hrt fun hw => List.not_mem_nil hw.2
  | jr rs =>
    have hrs : r ≠ rs := by simpa [reads] using hr
    simp only [exec_jr, h.regs _ hrs]
    exact .next (h.jumpTo _) fun hw => absurd hw.2 List.not_mem_nil
  | rte =>
    simp only [exec_rte, returnFromException, h.epc]
    exact .next (h.jumpTo _) fun hw => absurd hw.2 List.not_mem_nil
  | j target =>
    simp only [exec_j, State.jumpTarget, State.nextPc, h.pc]
    exact .next (h.jumpTo _) fun hw => absurd hw.2 List.not_mem_nil
  | jal target =>
    simp only [exec_jal, jumpPc, h.pc]
    refine .next ((h.writeReg _ _).jumpTo _) fun hw => ?_
    cases List.mem_singleton.mp hw.2
    exact readReg_writeReg_same_congr h.params 31 _
  | beq rs rt | bne rs rt | ble rs rt | bgt rs rt =>
    obtain ⟨hrs, hrt⟩ : r ≠ rs ∧ r ≠ rt := by simpa [reads] using hr
    simp only [exec, execBeq, execBne, execBle, execBgt, h.regs _ hrs, h.regs _ hrt]
    exact .branch h _ _ fun hw => List.not_mem_nil hw.2
  | lb rt rs | lh rt rs | lw rt rs =>
    have hrs : r ≠ rs := by simpa [reads] using hr
    simp only [exec_lb, exec_lh, exec_lw, ea, h.regs _ hrs]
    exact .load h _ _ _ _ fun hw => List.mem_singleton.mp hw.2
  | sb rt rs | sw rt rs =>
    obtain ⟨hrs, hrt⟩ : r ≠ rs ∧ r ≠ rt := by simpa [reads] using hr
    simp only [exec_sb, exec_sw, ea, h.regs _ hrs, h.regs _ hrt]
    exact .store h _ _ _ fun hw => List.not_mem_nil hw.2
  | push rt =>
    obtain ⟨hrt, h29⟩ : r ≠ rt ∧ r ≠ 29 := by simpa [reads] using hr
    exact .push h hrt h29 fun hw => List.mem_singleton.mp hw.2
  | pop rt =>
    have h29 : r ≠ 29 := by simpa [reads] using hr
    exact .pop h h29 fun hw => by simpa [writes, h29] using hw.2

/-- Settles O48: the write of an unread register makes two states that differ there only. -/
theorem unlistedRegistersAreNotRead : Obligations.UnlistedRegistersAreNotRead := by
  intro i s t r v hr ht
  obtain ⟨t', ht', hsame, hwritten⟩ := exec_follows (.of_writeReg s r v) hr t ht
  exact ⟨t', ht', hsame.pc, hsame.epc, hsame.mem, fun _ => ⟨hsame.hi, hsame.lo⟩, fun r' hne => hsame.regs r' hne.symm,
    fun hnone hmem => hwritten ⟨hnone, hmem⟩⟩

end Sys2Proof.Proofs
